-- ==== Sys2Proof/Word.lean ====
section
/-!
DEFINITION. The words of the codec: a byte and a mask key (00_scope.md R7, 10_state.md R27).
-/

namespace Sys2Proof

/-- A stream element: 8 bits, bit 7 the most significant (R7, R61). -/
abbrev Byte := BitVec 8

/-- A mask key: four bytes in wire order, with no numeric value (R27, R69). -/
abbrev Key := Vector Byte 4

end Sys2Proof
end

