-- ==== Sys2Proof/Config.lean ====
section
/-!
DEFINITION. The fixed parameters of 00_scope.md R6 and the values the spec leaves free. A free value is an opaque
constant: nothing can be proved about what it is.
-/

namespace Sys2Proof

/-- `CTRL_MAX`: the largest payload of a control frame (R6, R102). -/
def Config.ctrlMax : Nat := 125

/-- The `n`-th mask key the key source supplies when the host has placed none in `Link.keys`: a free input under no
law (R226, U6; log entry 4). Safe: every claim holds whatever it is. -/
opaque Config.freeKey : Nat → Key

/-- Byte `i` of the control buffer at the `n`-th moment the spec leaves it unspecified: after INIT (R42), and at or
above `ctrlLen` in the copy STATUS returns (R261, U8; log entry 3). Safe: every claim holds whatever it is. -/
opaque Config.unspecifiedByte : Nat → Nat → Byte

/-- The 64-bit number in the extended length of a frame the host asks for with 2^64 payload bytes or more: `Encode` is
given for shorter payloads only (R220; log entry 12). Safe: every claim holds whatever it is. -/
opaque Config.unstatedLength : Nat → BitVec 64

end Sys2Proof
end

