-- ==== Sys2Proof/Syntax.lean ====
section
/-!
DEFINITION. The instructions: one constructor per row of spec/opcode_table.json, the sixteen wire opcodes (30_encoding.md
R95) and the seven host commands (44_commands.md R250), and the two ways they reach the codec.
-/

namespace Sys2Proof

/-- Which end of the link this codec is (10_state.md R21). -/
inductive Role where
  | server
  | client
  deriving DecidableEq, Repr

/-- The numbers of R21. -/
def Role.code : Role → BitVec 1
  | .server => 0
  | .client => 1

/-- The operands of a reserved opcode: what byte 0 carries beside the opcode (R91, R195). -/
structure Head where
  fin : Bool
  rsv : BitVec 3
  deriving DecidableEq, Repr

/-- The operands of a frame (R90): `key` is present exactly when the MASK bit is 1 (R92, R99). `payload` is the payload
before masking; its length is the frame's length, written in the shortest form (R100). -/
structure Frame where
  fin : Bool
  rsv : BitVec 3
  key : Option Key
  payload : List Byte
  deriving DecidableEq, Repr

/-- One constructor per row of the opcode table. -/
inductive Instr where
  | cont (f : Frame)
  | text (f : Frame)
  | bin (f : Frame)
  | rsvd3 (h : Head)
  | rsvd4 (h : Head)
  | rsvd5 (h : Head)
  | rsvd6 (h : Head)
  | rsvd7 (h : Head)
  | close (f : Frame)
  | ping (f : Frame)
  | pong (f : Frame)
  | rsvdB (h : Head)
  | rsvdC (h : Head)
  | rsvdD (h : Head)
  | rsvdE (h : Head)
  | rsvdF (h : Head)
  | status
  | init (role : Role) (maxPayload : Option (BitVec 64)) (pongNotify : Bool)
  | rxByte (b : Byte)
  | rxChunk (bs : List Byte)
  | txFrame (fin : Bool) (opcode : BitVec 4) (payload : List Byte)
  | txClose (payload : List Byte)
  | txPing (payload : List Byte)
  deriving DecidableEq, Repr

/-- One host command as it reaches the command interface: the command code of R262 and the operands by name. The spec
gives the operands no bit positions (R66, R250), so none are made up here (log entry 5). A command reads the operands
its rule names; the others stay at their defaults. -/
structure CmdWord where
  code : BitVec 3
  role : Role := .server
  maxPayload : Option (BitVec 64) := none
  pongNotify : Bool := false
  byte : Byte := 0
  fin : Bool := false
  opcode : BitVec 4 := 0
  bytes : List Byte := []
  deriving DecidableEq, Repr

/-- One item the outside world has given the codec and the codec has not consumed: a host command (R250), or bytes
the transport has put on RX (R61). -/
inductive HostInput where
  | command (w : CmdWord)
  | wire (bs : List Byte)
  deriving DecidableEq, Repr

end Sys2Proof
end

