-- ==== Sys2Proof/Machine/Operands.lean ====
section
/-!
DEFINITION. Every operand form of a frame: the two header bytes and their fields, the opcode classes, the three
length forms in both directions, the mask, and the whole frame on the wire (30_encoding.md, 43_encoder.md).
-/

namespace Sys2Proof

/-! ### Header bytes (R91, R92) -/

/-- `FIN`, bit 7 of byte 0 (R91). -/
def finOf (b0 : Byte) : Bool := b0.getLsbD 7

/-- `RSV`, bits 6:4 of byte 0 (R91, R97). -/
def rsvOf (b0 : Byte) : BitVec 3 := b0.extractLsb' 4 3

/-- `OPCODE`, bits 3:0 of byte 0 (R91, R95). -/
def opcodeOf (b0 : Byte) : BitVec 4 := b0.extractLsb' 0 4

/-- `MASK`, bit 7 of byte 1 (R92). -/
def maskOf (b1 : Byte) : Bool := b1.getLsbD 7

/-- `LEN7`, bits 6:0 of byte 1 (R92). -/
def len7Of (b1 : Byte) : BitVec 7 := b1.extractLsb' 0 7

/-- Byte 0 from its fields (R91). -/
def byte0 (fin : Bool) (rsv : BitVec 3) (opcode : BitVec 4) : Byte := BitVec.ofBool fin ++ rsv ++ opcode

/-- Byte 1 from its fields (R92). -/
def byte1 (m : Bool) (len7 : BitVec 7) : Byte := BitVec.ofBool m ++ len7

/-! ### Opcode classes (R11) -/

/-- `IsData` (R11). -/
def isData (op : BitVec 4) : Bool := op == 0x0 || op == 0x1 || op == 0x2

/-- `IsControl` (R11). -/
def isControl (op : BitVec 4) : Bool := op == 0x8 || op == 0x9 || op == 0xA

/-- `IsReserved` (R11, R96). -/
def isReserved (op : BitVec 4) : Bool :=
  (decide (0x3 ≤ op) && decide (op ≤ 0x7)) || (decide (0xB ≤ op) && decide (op ≤ 0xF))

/-! ### Length (R98, R222) -/

/-- `{extLen[55:0], b}`: one more length byte shifted in at the bottom (R26, R149 a). -/
def shiftIn (extLen : BitVec 64) (b : Byte) : BitVec 64 := extLen.extractLsb' 0 56 ++ b

/-- Byte `i` of a length, byte 0 the least significant. -/
def lengthByte (L i : Nat) : Byte := BitVec.ofNat 8 (L >>> (8 * i))

/-- The number the eight bytes of the long form carry: the length itself, for every length `Encode` takes; beyond them
the spec states no bytes, and the number is free (R220; log entry 12). -/
def longLength (L : Nat) : Nat := if L < 2 ^ 64 then L else (Config.unstatedLength L).toNat

/-- `LenField(m, L)`: byte 1 and the extended length, in the shortest form, big-endian (R222, R67). -/
def lenField (m : Bool) (L : Nat) : List Byte :=
  if L ≤ 125 then [byte1 m (BitVec.ofNat 7 L)]
  else if L ≤ 65535 then [byte1 m 126, lengthByte L 1, lengthByte L 0]
  else byte1 m 127 :: [7, 6, 5, 4, 3, 2, 1, 0].map (lengthByte (longLength L))

/-- The unsigned number that a big-endian byte sequence spells, 64 bits (R67, R98). -/
def lengthOf (bs : List Byte) : BitVec 64 := bs.foldl shiftIn 0

/-- `HeaderBytes(MASK, LEN7)` (R94). -/
def headerBytes (m : Bool) (len7 : BitVec 7) : Nat :=
  2 + (if len7 = 126 then 2 else if len7 = 127 then 8 else 0) + (if m then 4 else 0)

/-! ### Mask (R224) -/

/-- Byte `i mod 4` of a key, `i` held in the two bits of `maskCounter` (R29). -/
def keyByte (k : Key) (i : BitVec 2) : Byte := k[i.toNat]'i.isLt

/-- The mask started at key index `i`: the index advances modulo 4 with each byte (R29, R145). -/
def maskFrom (k : Key) (i : BitVec 2) : List Byte → List Byte
  | [] => []
  | p :: ps => (p ^^^ keyByte k i) :: maskFrom k (i + 1) ps

/-- `Mask(key, p)`, index 0 at the first byte (R224, D20). -/
def mask (k : Key) (p : List Byte) : List Byte := maskFrom k 0 p

/-! ### The whole frame (R90, R93, R105, R220) -/

/-- The key and payload as they stand on the wire: with a key, its four bytes and the masked payload; without one, the
payload (R105, R223). -/
def wireBody (key : Option Key) (payload : List Byte) : List Byte :=
  match key with
  | none => payload
  | some k => k.toList ++ mask k payload

/-- A frame on the wire: byte 0, the length field, the key and the payload (R90, R93). -/
def wireFrame (fin : Bool) (rsv : BitVec 3) (opcode : BitVec 4) (key : Option Key) (payload : List Byte) : List Byte :=
  byte0 fin rsv opcode :: (lenField key.isSome payload.length ++ wireBody key payload)

/-- The bytes of a frame instruction with its opcode. -/
def Frame.bytes (opcode : BitVec 4) (f : Frame) : List Byte := wireFrame f.fin f.rsv opcode f.key f.payload

/-- The one byte of a reserved opcode: nothing of the frame is consumed beyond it (R195; log entry 10). -/
def Head.bytes (opcode : BitVec 4) (h : Head) : List Byte := [byte0 h.fin h.rsv opcode]

/-- The key that is sent: a client masks, a server does not (R103, R223). -/
def sentKey (role : Role) (key : Key) : Option Key :=
  match role with
  | .client => some key
  | .server => none

/-- `Encode(role, fin, opcode, key, payload)`: a pure function, RSV always 000 (R220, R221, R230). -/
def encodeTx (role : Role) (fin : Bool) (opcode : BitVec 4) (key : Key) (payload : List Byte) : List Byte :=
  wireFrame fin 0 opcode (sentKey role key) payload

end Sys2Proof
end

