-- ==== Sys2Proof/WellFormed.lean ====
section
/-!
DEFINITION. Which instructions exist: the length of a frame fits 64 bits (R90), and a control frame carries at most 125
bytes (R102).
-/

namespace Sys2Proof

/-- A data frame: `0 <= L < 2^64` (R90). -/
def Frame.dataWf (f : Frame) : Bool := decide (f.payload.length < 2 ^ 64)

/-- A control frame: formats U7 and M7 only (R102). -/
def Frame.ctrlWf (f : Frame) : Bool := decide (f.payload.length ≤ Config.ctrlMax)

/-- The instruction exists. RX_CHUNK takes a sequence of any length (R253), and TX_FRAME, TX_CLOSE and TX_PING answer
any payload with a status (R255 to R258). -/
def Instr.wf : Instr → Bool
  | .cont f => f.dataWf
  | .text f => f.dataWf
  | .bin f => f.dataWf
  | .close f => f.ctrlWf
  | .ping f => f.ctrlWf
  | .pong f => f.ctrlWf
  | .rsvd3 _ => true
  | .rsvd4 _ => true
  | .rsvd5 _ => true
  | .rsvd6 _ => true
  | .rsvd7 _ => true
  | .rsvdB _ => true
  | .rsvdC _ => true
  | .rsvdD _ => true
  | .rsvdE _ => true
  | .rsvdF _ => true
  | .status => true
  | .init _ _ _ => true
  | .rxByte _ => true
  | .rxChunk _ => true
  | .txFrame _ _ _ => true
  | .txClose _ => true
  | .txPing _ => true

end Sys2Proof
end

