-- ==== Sys2Proof/Decode.lean ====
section
/-!
DEFINITION. The decoder, total on any bytes and any command word, rejecting by name; and after it the encoder
(30_encoding.md R90 to R104, R111, 44_commands.md R262).
-/

namespace Sys2Proof

/-- Why bytes or a command word are no instruction. Bytes that are no frame instruction are still received: each goes
through its step rule, which raises the violation the spec names or waits for more (R101, R102, R70; log entry 6). -/
inductive DecodeError where
  /-- The frame is not complete yet (R70 "Truncated input: not an error"). -/
  | truncated
  /-- The length does not use the shortest form (R100, R101). -/
  | nonMinimalLength
  /-- A control opcode with base length 126 or 127 (R101, R102). -/
  | controlTooLong
  /-- Command code 7 (R262, U10). -/
  | unassignedCode
  deriving DecidableEq, Repr

/-! ### Frames -/

/-- The instruction a reserved opcode selects, reading byte 0 alone (R195, R111). -/
def reservedInstr (op : BitVec 4) (h : Head) : Option Instr :=
  if op = 0x3 then some (.rsvd3 h)
  else if op = 0x4 then some (.rsvd4 h)
  else if op = 0x5 then some (.rsvd5 h)
  else if op = 0x6 then some (.rsvd6 h)
  else if op = 0x7 then some (.rsvd7 h)
  else if op = 0xB then some (.rsvdB h)
  else if op = 0xC then some (.rsvdC h)
  else if op = 0xD then some (.rsvdD h)
  else if op = 0xE then some (.rsvdE h)
  else if op = 0xF then some (.rsvdF h)
  else none

/-- The instruction a defined opcode selects (R95, R111). -/
def frameInstr (op : BitVec 4) (f : Frame) : Option Instr :=
  if op = 0x0 then some (.cont f)
  else if op = 0x1 then some (.text f)
  else if op = 0x2 then some (.bin f)
  else if op = 0x8 then some (.close f)
  else if op = 0x9 then some (.ping f)
  else if op = 0xA then some (.pong f)
  else none

/-- The payload length and the bytes after the length field: the base length itself, 2 bytes or 8 bytes big-endian, in
the shortest form (R98, R100, R104). -/
def decodeLength (len7 : BitVec 7) (bs : List Byte) : Except DecodeError (Nat × List Byte) :=
  if len7 = 126 then
    match bs with
    | a :: b :: rest =>
      let L := (lengthOf [a, b]).toNat
      if L < 126 then .error .nonMinimalLength else .ok (L, rest)
    | _ => .error .truncated
  else if len7 = 127 then
    match bs with
    | a :: b :: c :: d :: e :: f :: g :: h :: rest =>
      let L := (lengthOf [a, b, c, d, e, f, g, h]).toNat
      if L < 65536 then .error .nonMinimalLength else .ok (L, rest)
    | _ => .error .truncated
  else .ok (len7.toNat, bs)

/-- The key, when MASK is 1: exactly four bytes (R99). -/
def decodeKey (m : Bool) (bs : List Byte) : Except DecodeError (Option Key × List Byte) :=
  if m then
    match bs with
    | a :: b :: c :: d :: rest => .ok (some #v[a, b, c, d], rest)
    | _ => .error .truncated
  else .ok (none, bs)

/-- The payload before masking (R105). -/
def unmask (key : Option Key) (bs : List Byte) : List Byte :=
  match key with
  | none => bs
  | some k => mask k bs

/-- The key and the `L` payload bytes (R90). -/
def decodeBody (fin : Bool) (rsv : BitVec 3) (m : Bool) (L : Nat) (bs : List Byte) :
    Except DecodeError (Frame × List Byte) :=
  match decodeKey m bs with
  | .error e => .error e
  | .ok (key, rest) =>
    if rest.length < L then .error .truncated
    else .ok (⟨fin, rsv, key, unmask key (rest.take L)⟩, rest.drop L)

/-- Everything after byte 0 of a frame with a defined opcode (R92, R102, R104). -/
def decodeRest (fin : Bool) (rsv : BitVec 3) (op : BitVec 4) (bs : List Byte) :
    Except DecodeError (Frame × List Byte) :=
  match bs with
  | [] => .error .truncated
  | b1 :: rest =>
    if isControl op && decide (126 ≤ (len7Of b1).toNat) then .error .controlTooLong
    else
      match decodeLength (len7Of b1) rest with
      | .error e => .error e
      | .ok (L, rest') => decodeBody fin rsv (maskOf b1) L rest'

/-- The frame instruction at the head of a byte sequence, and the bytes after it. Byte 0 selects the row by its low
four bits alone: FIN and RSV take no part (R111). -/
def decodeFrame (bs : List Byte) : Except DecodeError (Instr × List Byte) :=
  match bs with
  | [] => .error .truncated
  | b0 :: rest =>
    match reservedInstr (opcodeOf b0) ⟨finOf b0, rsvOf b0⟩ with
    | some i => .ok (i, rest)
    | none =>
      match decodeRest (finOf b0) (rsvOf b0) (opcodeOf b0) rest with
      | .error e => .error e
      | .ok (f, rest') =>
        match frameInstr (opcodeOf b0) f with
        | some i => .ok (i, rest')
        | none => .error .truncated

/-! ### Commands -/

/-- The command a code selects (R262); code 7 is no command. -/
def decodeCommand (w : CmdWord) : Except DecodeError Instr :=
  if w.code = 0 then .ok .status
  else if w.code = 1 then .ok (.init w.role w.maxPayload w.pongNotify)
  else if w.code = 2 then .ok (.rxByte w.byte)
  else if w.code = 3 then .ok (.rxChunk w.bytes)
  else if w.code = 4 then .ok (.txFrame w.fin w.opcode w.bytes)
  else if w.code = 5 then .ok (.txClose w.bytes)
  else if w.code = 6 then .ok (.txPing w.bytes)
  else .error .unassignedCode

/-- The decoder: the instruction and, for bytes on RX, what follows it. -/
def decode (x : HostInput) : Except DecodeError (Instr × List Byte) :=
  match x with
  | .wire bs => decodeFrame bs
  | .command w =>
    match decodeCommand w with
    | .ok i => .ok (i, [])
    | .error e => .error e

/-! ### The encoder -/

/-- The words of an instruction: the bytes of a frame (R93, R95), the command word of a command (R262). -/
def encode : Instr → HostInput
  | .cont f => .wire (f.bytes 0x0)
  | .text f => .wire (f.bytes 0x1)
  | .bin f => .wire (f.bytes 0x2)
  | .rsvd3 h => .wire (h.bytes 0x3)
  | .rsvd4 h => .wire (h.bytes 0x4)
  | .rsvd5 h => .wire (h.bytes 0x5)
  | .rsvd6 h => .wire (h.bytes 0x6)
  | .rsvd7 h => .wire (h.bytes 0x7)
  | .close f => .wire (f.bytes 0x8)
  | .ping f => .wire (f.bytes 0x9)
  | .pong f => .wire (f.bytes 0xA)
  | .rsvdB h => .wire (h.bytes 0xB)
  | .rsvdC h => .wire (h.bytes 0xC)
  | .rsvdD h => .wire (h.bytes 0xD)
  | .rsvdE h => .wire (h.bytes 0xE)
  | .rsvdF h => .wire (h.bytes 0xF)
  | .status => .command { code := 0 }
  | .init role maxPayload pongNotify =>
    .command { code := 1, role := role, maxPayload := maxPayload, pongNotify := pongNotify }
  | .rxByte b => .command { code := 2, byte := b }
  | .rxChunk bs => .command { code := 3, bytes := bs }
  | .txFrame fin opcode payload => .command { code := 4, fin := fin, opcode := opcode, bytes := payload }
  | .txClose payload => .command { code := 5, bytes := payload }
  | .txPing payload => .command { code := 6, bytes := payload }

/-! ### The row of the opcode table an instruction stands in -/

/-- The 4-bit opcode of a frame instruction (R95); a command has none. -/
def Instr.wireOpcode : Instr → Option (BitVec 4)
  | .cont _ => some 0x0
  | .text _ => some 0x1
  | .bin _ => some 0x2
  | .rsvd3 _ => some 0x3
  | .rsvd4 _ => some 0x4
  | .rsvd5 _ => some 0x5
  | .rsvd6 _ => some 0x6
  | .rsvd7 _ => some 0x7
  | .close _ => some 0x8
  | .ping _ => some 0x9
  | .pong _ => some 0xA
  | .rsvdB _ => some 0xB
  | .rsvdC _ => some 0xC
  | .rsvdD _ => some 0xD
  | .rsvdE _ => some 0xE
  | .rsvdF _ => some 0xF
  | .status => none
  | .init _ _ _ => none
  | .rxByte _ => none
  | .rxChunk _ => none
  | .txFrame _ _ _ => none
  | .txClose _ => none
  | .txPing _ => none

/-- The 3-bit code of a command (R262); a frame instruction has none. -/
def Instr.commandCode : Instr → Option (BitVec 3)
  | .status => some 0
  | .init _ _ _ => some 1
  | .rxByte _ => some 2
  | .rxChunk _ => some 3
  | .txFrame _ _ _ => some 4
  | .txClose _ => some 5
  | .txPing _ => some 6
  | .cont _ => none
  | .text _ => none
  | .bin _ => none
  | .rsvd3 _ => none
  | .rsvd4 _ => none
  | .rsvd5 _ => none
  | .rsvd6 _ => none
  | .rsvd7 _ => none
  | .close _ => none
  | .ping _ => none
  | .pong _ => none
  | .rsvdB _ => none
  | .rsvdC _ => none
  | .rsvdD _ => none
  | .rsvdE _ => none
  | .rsvdF _ => none

/-! ### Words as the opcode table numbers them -/

/-- The low `n` bytes of `w`, least significant first. -/
def bytesOf : Nat → Nat → List Byte
  | 0, _ => []
  | n + 1, w => BitVec.ofNat 8 w :: bytesOf n (w >>> 8)

/-- The size of the frame that begins with these bytes, absent bytes read as zero (R94, R98); one byte for a reserved
opcode (R195). -/
def frameSize (bs : List Byte) : Nat :=
  if isReserved (opcodeOf (bs.headD 0)) then 1
  else
    let len7 := len7Of (bs.tail.headD 0)
    let ext := fun n => (lengthOf ((bs.drop 2 ++ List.replicate n 0).take n)).toNat
    headerBytes (maskOf (bs.tail.headD 0)) len7 +
      (if len7 = 126 then ext 2 else if len7 = 127 then ext 8 else len7.toNat)

/-- The bytes of a table word: as many as its frame has, the bits above `nbits` zero. -/
def tableBytes (nbits w : Nat) : List Byte :=
  let bs := bytesOf ((nbits + 7) / 8) (w % 2 ^ nbits)
  (bs ++ List.replicate (frameSize bs - bs.length) 0).take (frameSize bs)

/-- A table word as it reaches the codec. The table's FRAME rows and CMD rows number two different words (R111) and
overlap as numbers, so the width tells them apart: below 8 bits the word is the 3-bit command code, from 8 bits on it
is the frame whose byte 0 is bits 7:0 (log entry 9). -/
def tableInput (nbits w : Nat) : HostInput :=
  if nbits < 8 then .command { code := BitVec.ofNat 3 (w % 2 ^ nbits) } else .wire (tableBytes nbits w)

/-- What the decoder reads from a table word. -/
def decodeTableWord (nbits w : Nat) : Option Instr :=
  match decode (tableInput nbits w) with
  | .ok (i, _) => some i
  | .error _ => none

end Sys2Proof
end

