-- ==== Sys2Proof/Machine/State.lean ====
section
/-!
DEFINITION. The state: the Connection record of 10_state.md R20, the streams and command results of 20_memory.md and
44_commands.md, and the codec's inputs; the reasons a step can stop; and the state after reset.
-/

namespace Sys2Proof.Machine

/-- `decodeStep` (R22). -/
inductive DecodeStep where
  | start
  | length
  | shortLength
  | extendedLength
  | key
  | data
  | endStep
  deriving DecidableEq, Repr

/-- The numbers of R22; 7 is never written. -/
def DecodeStep.code : DecodeStep → BitVec 3
  | .start => 0
  | .length => 1
  | .shortLength => 2
  | .extendedLength => 3
  | .key => 4
  | .data => 5
  | .endStep => 6

/-- The Connection record `S` (R20), field for field; `hdrByte0` is the spec's `hdr.byte0`, and so on. -/
structure Conn where
  role : Role
  maxPayloadEn : Bool
  maxPayloadBytes : BitVec 64
  pongNotify : Bool
  decodeStep : DecodeStep
  fieldIdx : BitVec 3
  hdrByte0 : Byte
  hdrByte1 : Byte
  hdrExtLen : BitVec 64
  hdrKey : Key
  payloadBytesRemaining : BitVec 64
  maskCounter : BitVec 2
  lastOpcode : BitVec 4
  ctrlBuf : Vector Byte 125
  ctrlLen : BitVec 7
  closeSent : Bool
  errorCode : BitVec 8
  deriving DecidableEq, Repr

/-- The fragment state of a DLV_END beat (R110). -/
inductive FragState where
  | start
  | cont
  | finish
  deriving DecidableEq, Repr

/-- The numbers of R110; 3 is never produced. -/
def FragState.code : FragState → BitVec 2
  | .start => 0
  | .cont => 1
  | .finish => 2

/-- One element of a command's ordered output list (R65): a frame on TX (R62, R79), a beat on DLV (R63), an event on EV
(R64, R290). -/
inductive Output where
  | tx (bytes : List Byte)
  | dlvData (u : Byte) (bin : Bool)
  | dlvEnd (fs : FragState) (bin : Bool)
  | evError (code : BitVec 8)
  | evShutdown
  | evPong (n : BitVec 7)
  deriving DecidableEq, Repr

/-- What a command returns (R254). -/
inductive Status where
  | ok
  | halted
  | alreadyClosed
  | refusedOversize
  | refusedOpcode
  deriving DecidableEq, Repr

/-- The numbers of R254. -/
def Status.code : Status → BitVec 4
  | .ok => 0
  | .halted => 1
  | .alreadyClosed => 2
  | .refusedOversize => 3
  | .refusedOpcode => 4

/-- What the decoder and the encoder work on: the Connection, the mask-key source and the output. `keys` are the keys
the key source has ready, first drawn first; `draws` counts the keys taken from `Config.freeKey` (R226; log entry 4).
`output` is everything emitted so far, in order (R65, R74; log entry 7). -/
structure Link where
  conn : Conn
  keys : List Key
  draws : Nat
  output : List Output
  deriving DecidableEq, Repr

/-- Why the machine stops with a fault. -/
inductive Fault where
  /-- RX_BYTE, RX_CHUNK and the frame instructions: the sequencer stands where no step rule applies, a state that R36,
  R39 and R40 exclude. Safe: the machine stops where the spec says nothing can be (log entry 8). -/
  | noStepRule (step : DecodeStep)
  deriving DecidableEq, Repr

/-- Why the machine has no meaning for what it was asked. -/
inductive Refusal where
  /-- An arm of `exec` whose instruction has no meaning yet; safe. No arm answers it. -/
  | notModelled (mnemonic : String)
  /-- Every instruction but INIT, before the first INIT (R320, U7: "refuse"); safe (log entry 1). -/
  | beforeInit
  /-- The step: a command code that no command has (R262, U10: "refuse"); safe (log entry 13). -/
  | notACommand (code : BitVec 3)
  deriving DecidableEq, Repr

/-- The machine's state. -/
structure State where
  /-- The Connection, the key source and the output. -/
  link : Link
  /-- An INIT has been executed (R320). -/
  initialised : Bool
  /-- What the host and the transport have given and the codec has not consumed, first first (R61, R250; log entry 5). -/
  inbox : List HostInput
  /-- The status the last command returned (R254). -/
  status : Status
  /-- The copy of the Connection the last command returned, when it was STATUS (R261). -/
  reply : Option Conn
  /-- How often unspecified buffer bytes were taken from `Config.unspecifiedByte` (log entry 3). -/
  freeReads : Nat
  deriving DecidableEq, Repr

/-- Shorthand: the Connection record `S` of a state. -/
abbrev State.conn (s : State) : Conn := s.link.conn

/-- Reset is INIT (R42, R321). Its three arguments are open parameters (R6): `SERVER`, no maximum, no pong events are
DESIGN CHOICES (log entry 2), and so are the zero bytes of the control buffer (log entry 3); nothing has been given to
the codec and nothing has been emitted. -/
def State.reset : State where
  link :=
    { conn :=
        { role := .server
          maxPayloadEn := false
          maxPayloadBytes := 0
          pongNotify := false
          decodeStep := .start
          fieldIdx := 0
          hdrByte0 := 0
          hdrByte1 := 0
          hdrExtLen := 0
          hdrKey := Vector.replicate 4 0
          payloadBytesRemaining := 0
          maskCounter := 0
          lastOpcode := 0
          ctrlBuf := Vector.replicate 125 0
          ctrlLen := 0
          closeSent := false
          errorCode := 0 }
      keys := []
      draws := 0
      output := [] }
  initialised := true
  inbox := []
  status := .ok
  reply := none
  freeReads := 0

end Sys2Proof.Machine
end

