-- ==== Sys2Proof/Machine/Flags.lean ====
section
/-!
DEFINITION. Every flag and status computation: the violation codes (60_exceptions.md R281), the length ceiling (R34),
the mask-direction check (R134), the `bin` flag and the fragment state (R172, R173), the halted condition and the
status it gives (R254).
-/

namespace Sys2Proof.Machine

/-- The five violations, by the names of R281. -/
inductive Violation where
  | reservedOpcode
  | maskDirection
  | nonMinimalLength
  | controlTooLong
  | payloadTooLarge
  deriving DecidableEq, Repr

/-- The codes of R281. -/
def violationCode : Violation → BitVec 8
  | .reservedOpcode => 1
  | .maskDirection => 2
  | .nonMinimalLength => 3
  | .controlTooLong => 4
  | .payloadTooLarge => 5

/-- `Exceeds(v)`: a maximum is set and `v` is above it, unsigned (R34). -/
def exceeds (c : Conn) (v : BitVec 64) : Bool := c.maxPayloadEn && decide (c.maxPayloadBytes < v)

/-- The MASK bit the decoder of this role demands: a server accepts only masked frames, a client only unmasked ones
(R103, R134; 90_conflicts.md C1). -/
def expectedMask : Role → Bool
  | .server => true
  | .client => false

/-- `bin`: the message is binary (R172). -/
def binFlag (c : Conn) : Bool := c.lastOpcode == 0x2

/-- `FragState(fin, opcode)` (R173). -/
def fragState (fin : Bool) (op : BitVec 4) : FragState :=
  if fin then .finish else if op = 0x0 then .cont else .start

/-- `lastOpcode` after an accepted byte 0: a TEXT or BIN opcode is remembered, no other is (R170). -/
def nextLastOpcode (op last : BitVec 4) : BitVec 4 := if op = 0x1 ∨ op = 0x2 then op else last

/-- The halted condition (R286). -/
def halted (c : Conn) : Bool := c.errorCode != 0

/-- The status RX_BYTE and RX_CHUNK return (R252, R253, R254). -/
def rxStatus (c : Conn) : Status := if halted c then .halted else .ok

end Sys2Proof.Machine
end

