-- ==== Sys2Proof/Machine/Ops.lean ====
section
/-!
DEFINITION. The shared operations: emitting (00_scope.md R10), the mask-key source (43_encoder.md R226), sending a
frame, raising a violation (60_exceptions.md R283) and its one way out, INIT (R251, R287), the control buffer
(10_state.md R31), and how a command ends (44_commands.md R250).
-/

namespace Sys2Proof.Machine

/-! ### Output -/

/-- `Emit` (R10): append to the output, which nothing takes back (R73). -/
def emit (o : Output) (l : Link) : Link := { l with output := l.output ++ [o] }

/-! ### Violations: taking the exception, and the return from it -/

/-- `raise Violation(c)`: record the code, emit EV_ERROR, and nothing else (R283). -/
def raiseViolation (v : Violation) (l : Link) : Link :=
  emit (.evError (violationCode v)) { l with conn := { l.conn with errorCode := violationCode v } }

/-- There is no return from a violation but INIT (R287): every field as the table of R42 says. `buf` is the control
buffer, which R42 leaves unspecified. -/
def initConn (role : Role) (maxPayload : Option (BitVec 64)) (pongNotify : Bool) (buf : Vector Byte 125) : Conn where
  role := role
  maxPayloadEn := maxPayload.isSome
  maxPayloadBytes := maxPayload.getD 0
  pongNotify := pongNotify
  decodeStep := .start
  fieldIdx := 0
  hdrByte0 := 0
  hdrByte1 := 0
  hdrExtLen := 0
  hdrKey := Vector.replicate 4 0
  payloadBytesRemaining := 0
  maskCounter := 0
  lastOpcode := 0
  ctrlBuf := buf
  ctrlLen := 0
  closeSent := false
  errorCode := 0

/-! ### The mask-key source and sending a frame -/

/-- `DrawKey()`: the next key the source has ready, or a free one (R226; log entry 4). -/
def drawKey (l : Link) : Key × Link :=
  match l.keys with
  | k :: ks => (k, { l with keys := ks })
  | [] => (Config.freeKey l.draws, { l with draws := l.draws + 1 })

/-- The key source after the frame a codec of this role sends: one draw for a client, none for a server (R226). -/
def drawFor (l : Link) : Key × Link :=
  match l.conn.role with
  | .client => drawKey l
  | .server => (Vector.replicate 4 0, l)

/-- `Emit(TX(Encode(S.role, fin, opcode, DrawKey(), payload)))` (R191, R192, R255 to R257). With role SERVER `Encode`
ignores its key (R223), so none is drawn. -/
def sendFrame (fin : Bool) (op : BitVec 4) (payload : List Byte) (l : Link) : Link :=
  emit (.tx (encodeTx l.conn.role fin op (drawFor l).1 payload)) (drawFor l).2

/-! ### The control buffer -/

/-- `ctrlBuf[0..ctrlLen)`: all of the buffer that is ever read (R31). -/
def ctrlPayload (c : Conn) : List Byte := c.ctrlBuf.toList.take c.ctrlLen.toNat

/-- `ctrlBuf[ctrlLen] <- u; ctrlLen <- ctrlLen + 1` (R31, R145). -/
def storeCtrl (u : Byte) (c : Conn) : Conn :=
  { c with ctrlBuf := c.ctrlBuf.setIfInBounds c.ctrlLen.toNat u, ctrlLen := c.ctrlLen + 1 }

/-- A control buffer whose bytes from index `from'` on are unspecified; `n` numbers the moment (R42, R261, U8). -/
def unspecifiedFrom (n from' : Nat) (buf : Vector Byte 125) : Vector Byte 125 :=
  Vector.ofFn fun i => if i.val < from' then buf[i.val] else Config.unspecifiedByte n i.val

/-- The copy STATUS returns: every field, the buffer at and above `ctrlLen` unspecified (R261). -/
def statusCopy (n : Nat) (c : Conn) : Conn := { c with ctrlBuf := unspecifiedFrom n c.ctrlLen.toNat c.ctrlBuf }

/-! ### The end of a command -/

/-- A command that only reads and writes the link: refused before the first INIT (R320); otherwise it runs whole and
returns a status and no copy (R250, R254). -/
def runCommand (body : Link → Link × Status) (s : State) : Host.Outcome State Fault Refusal :=
  if s.initialised then
    .next { s with link := (body s.link).1, status := (body s.link).2, reply := none }
  else .refused .beforeInit

end Sys2Proof.Machine
end

