-- ==== Sys2Proof/Machine/Decoder.lean ====
section
/-!
DEFINITION. The decoder state machine, one function per step rule of 40_decoder_steps.md, and the dispatch on a
received byte (44_commands.md R252, R253).
-/

namespace Sys2Proof.Machine

/-! ### END: what a complete frame does (R146, R147) -/

/-- `OnClose()`: echo the close once, then tell the host to shut down (R191). -/
def onClose (l : Link) : Link :=
  let echoed :=
    if l.conn.closeSent then l
    else
      let l' := sendFrame true 0x8 (ctrlPayload l.conn) l
      { l' with conn := { l'.conn with closeSent := true } }
  emit .evShutdown echoed

/-- `OnPing()`: a pong with the identical payload, FIN 1 (R192). -/
def onPing (l : Link) : Link := sendFrame true 0xA (ctrlPayload l.conn) l

/-- `OnPong()`: an event when the host asked for it (R194). -/
def onPong (l : Link) : Link := if l.conn.pongNotify then emit (.evPong l.conn.ctrlLen) l else l

/-- The end of a data frame: the DLV_END beat (R146, R171). -/
def onData (l : Link) : Link :=
  emit (.dlvEnd (fragState (finOf l.conn.hdrByte0) (opcodeOf l.conn.hdrByte0)) (binFlag l.conn)) l

/-- `case S.hdr.opcode of` (R146). A reserved opcode has no arm: it never gets here (R132). -/
def endAction (l : Link) : Link :=
  if isData (opcodeOf l.conn.hdrByte0) then onData l
  else if opcodeOf l.conn.hdrByte0 = 0x8 then onClose l
  else if opcodeOf l.conn.hdrByte0 = 0x9 then onPing l
  else if opcodeOf l.conn.hdrByte0 = 0xA then onPong l
  else l

/-- `S.decodeStep <- STEP`. -/
def setStep (step : DecodeStep) (l : Link) : Link := { l with conn := { l.conn with decodeStep := step } }

/-- `FrameEnd()`: through END and back to START inside one byte (R146, R147, R36). -/
def frameEnd (l : Link) : Link := setStep .start (endAction (setStep .endStep l))

/-! ### Header complete (R142, R144) -/

/-- `EnterData()` (R144). -/
def enterData (l : Link) : Link :=
  let l' : Link := { l with conn := { l.conn with maskCounter := 0, ctrlLen := 0 } }
  if l.conn.payloadBytesRemaining = 0 then frameEnd l' else setStep .data l'

/-- `HeaderLengthDone()` (R142). -/
def headerLengthDone (l : Link) : Link :=
  if maskOf l.conn.hdrByte1 then { l with conn := { l.conn with decodeStep := .key, fieldIdx := 0 } }
  else enterData l

/-! ### The step rules -/

/-- `START` (R131, R132). -/
def startRule (b : Byte) (l : Link) : Link :=
  if isReserved (opcodeOf b) then raiseViolation .reservedOpcode l
  else
    { l with
      conn :=
        { l.conn with
          hdrByte0 := b
          lastOpcode := nextLastOpcode (opcodeOf b) l.conn.lastOpcode
          decodeStep := .length } }

/-- The violation the LENGTH byte raises, if any, in the order of R284 (R133 to R135). -/
def lengthViolation (b : Byte) (c : Conn) : Option Violation :=
  if maskOf b ≠ expectedMask c.role then some .maskDirection
  else if isControl (opcodeOf c.hdrByte0) && decide (126 ≤ (len7Of b).toNat) then some .controlTooLong
  else if decide ((len7Of b).toNat ≤ 125) && exceeds c ((len7Of b).zeroExtend 64) then some .payloadTooLarge
  else none

/-- `LENGTH` (R133, R136, R137). -/
def lengthRule (b : Byte) (l : Link) : Link :=
  match lengthViolation b l.conn with
  | some v => raiseViolation v l
  | none =>
    let c : Conn := { l.conn with hdrByte1 := b, hdrExtLen := 0, fieldIdx := 0 }
    if len7Of b = 126 then { l with conn := { c with decodeStep := .shortLength } }
    else if len7Of b = 127 then { l with conn := { c with decodeStep := .extendedLength } }
    else headerLengthDone { l with conn := { c with payloadBytesRemaining := (len7Of b).zeroExtend 64 } }

/-- The violation a complete extended length `v` raises, if any, in the order of R284: non-minimal below `least`, then
too large (R139, R141). -/
def extLenViolation (least : Nat) (v : BitVec 64) (c : Conn) : Option Violation :=
  if v.toNat < least then some .nonMinimalLength
  else if exceeds c v then some .payloadTooLarge
  else none

/-- The last byte of an extended length (R139, R141). -/
def lastLengthByte (least : Nat) (b : Byte) (l : Link) : Link :=
  let v := shiftIn l.conn.hdrExtLen b
  match extLenViolation least v l.conn with
  | some e => raiseViolation e l
  | none => headerLengthDone { l with conn := { l.conn with hdrExtLen := v, payloadBytesRemaining := v } }

/-- A byte of an extended length before the last one (R138, R140). -/
def moreLengthByte (b : Byte) (l : Link) : Link :=
  { l with
    conn := { l.conn with hdrExtLen := shiftIn l.conn.hdrExtLen b, fieldIdx := l.conn.fieldIdx + 1 } }

/-- `SHORT_LENGTH` (R138, R139). -/
def shortLengthRule (b : Byte) (l : Link) : Link :=
  if l.conn.fieldIdx = 0 then moreLengthByte b l else lastLengthByte 126 b l

/-- `EXTENDED_LENGTH` (R140, R141). -/
def extendedLengthRule (b : Byte) (l : Link) : Link :=
  if l.conn.fieldIdx = 7 then lastLengthByte 65536 b l else moreLengthByte b l

/-- `KEY` (R143). -/
def keyRule (b : Byte) (l : Link) : Link :=
  let c : Conn := { l.conn with hdrKey := l.conn.hdrKey.setIfInBounds l.conn.fieldIdx.toNat b }
  if l.conn.fieldIdx = 3 then enterData { l with conn := c }
  else { l with conn := { c with fieldIdx := c.fieldIdx + 1 } }

/-- The payload byte after unmasking: `b XOR key[maskCounter]` when the frame's MASK bit is 1 (R145, R105). -/
def unmaskByte (b : Byte) (c : Conn) : Byte :=
  if maskOf c.hdrByte1 then b ^^^ keyByte c.hdrKey c.maskCounter else b

/-- The two counters after a payload byte: `maskCounter` advances only for a masked frame (R145, R38). -/
def countByte (c : Conn) : Conn :=
  { c with
    maskCounter := if maskOf c.hdrByte1 then c.maskCounter + 1 else c.maskCounter
    payloadBytesRemaining := c.payloadBytesRemaining - 1 }

/-- Where an unmasked payload byte goes: the control buffer or a DLV_DATA beat (R145, R171, R190). -/
def takePayload (u : Byte) (l : Link) : Link :=
  if isControl (opcodeOf l.conn.hdrByte0) then { l with conn := storeCtrl u l.conn }
  else emit (.dlvData u (binFlag l.conn)) l

/-- `DATA` (R145). -/
def dataRule (b : Byte) (l : Link) : Link :=
  let l' := takePayload (unmaskByte b l.conn) { l with conn := countByte l.conn }
  if l'.conn.payloadBytesRemaining = 0 then frameEnd l' else l'

/-! ### A received byte (R252) -/

/-- A step rule applies: the sequencer is not at END (R36), the key index is in range (R40), and in DATA there is a byte
to come (R39) and room for it in the control buffer (R31, R149 d). -/
def ruleApplies (c : Conn) : Bool :=
  match c.decodeStep with
  | .start => true
  | .length => true
  | .shortLength => true
  | .extendedLength => true
  | .key => decide (c.fieldIdx ≤ 3)
  | .data =>
    c.payloadBytesRemaining != 0 && (!isControl (opcodeOf c.hdrByte0) || decide (c.ctrlLen.toNat < Config.ctrlMax))
  | .endStep => false

/-- The step rule of the current step (R252). -/
def stepRule (b : Byte) (l : Link) : Link :=
  match l.conn.decodeStep with
  | .start => startRule b l
  | .length => lengthRule b l
  | .shortLength => shortLengthRule b l
  | .extendedLength => extendedLengthRule b l
  | .key => keyRule b l
  | .data => dataRule b l
  | .endStep => l

/-- One byte of RX: dropped when halted (R286), else its step rule (R252). -/
def rxByte (b : Byte) (l : Link) : Host.Outcome Link Fault Refusal :=
  if halted l.conn then .next l
  else if ruleApplies l.conn then .next (stepRule b l)
  else .fault (.noStepRule l.conn.decodeStep)

/-- A byte sequence, each byte in order (R253). -/
def rxBytes : List Byte → Link → Host.Outcome Link Fault Refusal
  | [], l => .next l
  | b :: bs, l =>
    match rxByte b l with
    | .next l' => rxBytes bs l'
    | .fault e => .fault e
    | .refused e => .refused e

/-- A command or frame instruction that feeds bytes to the decoder: refused before the first INIT (R320); the status is
HALTED when `errorCode` is not 0 at the end, else OK (R252, R253). -/
def receive (bs : List Byte) (s : State) : Host.Outcome State Fault Refusal :=
  if s.initialised then
    match rxBytes bs s.link with
    | .next l => .next { s with link := l, status := rxStatus l.conn, reply := none }
    | .fault e => .fault e
    | .refused e => .refused e
  else .refused .beforeInit

end Sys2Proof.Machine
end

