-- ==== Sys2Proof/Machine/Commands.lean ====
section
/-!
DEFINITION. The seven host commands (44_commands.md R251 to R261).
-/

namespace Sys2Proof.Machine

/-- `INIT`: the only reset (R251, R321). It needs no earlier INIT. It emits nothing and takes nothing back from the
output of earlier connections (R73, R333); the key source is outside the codec (R226). -/
def execInit (role : Role) (maxPayload : Option (BitVec 64)) (pongNotify : Bool) (s : State) :
    Host.Outcome State Fault Refusal :=
  .next
    { s with
      link :=
        { s.link with conn := initConn role maxPayload pongNotify (unspecifiedFrom s.freeReads 0 s.conn.ctrlBuf) }
      initialised := true
      status := .ok
      reply := none
      freeReads := s.freeReads + 1 }

/-- `RX_BYTE` (R252). -/
def execRxByte (b : Byte) (s : State) : Host.Outcome State Fault Refusal := receive [b] s

/-- `RX_CHUNK` (R253). -/
def execRxChunk (bs : List Byte) (s : State) : Host.Outcome State Fault Refusal := receive bs s

/-- `TX_FRAME` (R255, R258): admission first, whatever the payload's length, then one frame. `errorCode` and `closeSent`
are neither read nor written (R259, R230). -/
def execTxFrame (fin : Bool) (op : BitVec 4) (payload : List Byte) (s : State) : Host.Outcome State Fault Refusal :=
  runCommand
    (fun l =>
      if isReserved op then (l, .refusedOpcode)
      else if isControl op && decide (Config.ctrlMax < payload.length) then (l, .refusedOversize)
      else (sendFrame fin op payload l, .ok))
    s

/-- `TX_CLOSE`: once per connection (R256). -/
def execTxClose (payload : List Byte) (s : State) : Host.Outcome State Fault Refusal :=
  runCommand
    (fun l =>
      if l.conn.closeSent then (l, .alreadyClosed)
      else if Config.ctrlMax < payload.length then (l, .refusedOversize)
      else
        let l' := sendFrame true 0x8 payload l
        ({ l' with conn := { l'.conn with closeSent := true } }, .ok))
    s

/-- `TX_PING` (R257). -/
def execTxPing (payload : List Byte) (s : State) : Host.Outcome State Fault Refusal :=
  runCommand
    (fun l =>
      if Config.ctrlMax < payload.length then (l, .refusedOversize) else (sendFrame true 0x9 payload l, .ok))
    s

/-- `STATUS`: a copy of every field; nothing of the Connection changes (R261). -/
def execStatus (s : State) : Host.Outcome State Fault Refusal :=
  if s.initialised then
    .next { s with status := .ok, reply := some (statusCopy s.freeReads s.conn), freeReads := s.freeReads + 1 }
  else .refused .beforeInit

end Sys2Proof.Machine
end

