-- ==== Sys2Proof/Machine/ControlFrames.lean ====
section
/-!
DEFINITION. The control frames on receipt (42_control_frames.md R191, R192, R194): the whole frame goes through the
step rules; what the opcode does at END stands in `onClose`, `onPing` and `onPong`.
-/

namespace Sys2Proof.Machine

/-- `CLOSE` (R191). -/
def execClose (f : Frame) (s : State) : Host.Outcome State Fault Refusal := receive (f.bytes 0x8) s

/-- `PING` (R192). -/
def execPing (f : Frame) (s : State) : Host.Outcome State Fault Refusal := receive (f.bytes 0x9) s

/-- `PONG` (R194). -/
def execPong (f : Frame) (s : State) : Host.Outcome State Fault Refusal := receive (f.bytes 0xA) s

end Sys2Proof.Machine
end

