-- ==== Sys2Proof/Machine/DataFrames.lean ====
section
/-!
DEFINITION. The data frames on receipt (41_data_frames.md): the whole frame goes through the step rules, byte by byte;
what the opcode decides stands in `startRule`, `takePayload` and `onData`.
-/

namespace Sys2Proof.Machine

/-- `CONT` (R176). -/
def execCont (f : Frame) (s : State) : Host.Outcome State Fault Refusal := receive (f.bytes 0x0) s

/-- `TEXT` (R174). -/
def execText (f : Frame) (s : State) : Host.Outcome State Fault Refusal := receive (f.bytes 0x1) s

/-- `BIN` (R175). -/
def execBin (f : Frame) (s : State) : Host.Outcome State Fault Refusal := receive (f.bytes 0x2) s

end Sys2Proof.Machine
end

