-- ==== Sys2Proof/Machine/ReservedFrames.lean ====
section
/-!
DEFINITION. The ten reserved opcodes on receipt (42_control_frames.md R195): byte 0 raises violation 1 at START (R132).
-/

namespace Sys2Proof.Machine

/-- `RSVD3` (R195). -/
def execRsvd3 (h : Head) (s : State) : Host.Outcome State Fault Refusal := receive (h.bytes 0x3) s

/-- `RSVD4` (R195). -/
def execRsvd4 (h : Head) (s : State) : Host.Outcome State Fault Refusal := receive (h.bytes 0x4) s

/-- `RSVD5` (R195). -/
def execRsvd5 (h : Head) (s : State) : Host.Outcome State Fault Refusal := receive (h.bytes 0x5) s

/-- `RSVD6` (R195). -/
def execRsvd6 (h : Head) (s : State) : Host.Outcome State Fault Refusal := receive (h.bytes 0x6) s

/-- `RSVD7` (R195). -/
def execRsvd7 (h : Head) (s : State) : Host.Outcome State Fault Refusal := receive (h.bytes 0x7) s

/-- `RSVDB` (R195). -/
def execRsvdB (h : Head) (s : State) : Host.Outcome State Fault Refusal := receive (h.bytes 0xB) s

/-- `RSVDC` (R195). -/
def execRsvdC (h : Head) (s : State) : Host.Outcome State Fault Refusal := receive (h.bytes 0xC) s

/-- `RSVDD` (R195). -/
def execRsvdD (h : Head) (s : State) : Host.Outcome State Fault Refusal := receive (h.bytes 0xD) s

/-- `RSVDE` (R195). -/
def execRsvdE (h : Head) (s : State) : Host.Outcome State Fault Refusal := receive (h.bytes 0xE) s

/-- `RSVDF` (R195). -/
def execRsvdF (h : Head) (s : State) : Host.Outcome State Fault Refusal := receive (h.bytes 0xF) s

end Sys2Proof.Machine
end

