-- ==== Sys2Proof/Machine/Dispatch.lean ====
section
/-!
DEFINITION. One arm per instruction.
-/

namespace Sys2Proof.Machine

def exec (i : Instr) (s : State) : Host.Outcome State Fault Refusal :=
  match i with
  -- data frames
  | .cont f => Sys2Proof.Machine.execCont f s
  | .text f => Sys2Proof.Machine.execText f s
  | .bin f => Sys2Proof.Machine.execBin f s
  -- reserved opcodes
  | .rsvd3 h => Sys2Proof.Machine.execRsvd3 h s
  | .rsvd4 h => Sys2Proof.Machine.execRsvd4 h s
  | .rsvd5 h => Sys2Proof.Machine.execRsvd5 h s
  | .rsvd6 h => Sys2Proof.Machine.execRsvd6 h s
  | .rsvd7 h => Sys2Proof.Machine.execRsvd7 h s
  -- control frames
  | .close f => Sys2Proof.Machine.execClose f s
  | .ping f => Sys2Proof.Machine.execPing f s
  | .pong f => Sys2Proof.Machine.execPong f s
  -- reserved opcodes
  | .rsvdB h => Sys2Proof.Machine.execRsvdB h s
  | .rsvdC h => Sys2Proof.Machine.execRsvdC h s
  | .rsvdD h => Sys2Proof.Machine.execRsvdD h s
  | .rsvdE h => Sys2Proof.Machine.execRsvdE h s
  | .rsvdF h => Sys2Proof.Machine.execRsvdF h s
  -- host commands
  | .status => Sys2Proof.Machine.execStatus s
  | .init role maxPayload pongNotify => Sys2Proof.Machine.execInit role maxPayload pongNotify s
  | .rxByte b => Sys2Proof.Machine.execRxByte b s
  | .rxChunk bs => Sys2Proof.Machine.execRxChunk bs s
  | .txFrame fin op payload => Sys2Proof.Machine.execTxFrame fin op payload s
  | .txClose payload => Sys2Proof.Machine.execTxClose payload s
  | .txPing payload => Sys2Proof.Machine.execTxPing payload s

end Sys2Proof.Machine
end

