-- ==== Sys2Proof/Machine/Fetch.lean ====
section
/-!
DEFINITION. Where the next instruction comes from: the first item of the inbox, a host command (44_commands.md R250) or
bytes on RX (20_memory.md R61).
-/

namespace Sys2Proof.Machine

/-- What the codec finds to do. -/
inductive Fetched where
  | idle
  | run (i : Instr) (left : List HostInput)
  | refuse (r : Refusal)
  deriving DecidableEq, Repr

/-- The inbox with the bytes still to be consumed in front. -/
def pushWire (bs : List Byte) (q : List HostInput) : List HostInput :=
  match bs with
  | [] => q
  | b :: rest => .wire (b :: rest) :: q

/-- Bytes on RX: at START, a whole frame at their head is one instruction (R2, R104). Otherwise (in mid-frame, or a
frame not complete yet, or one whose length is illegal) the first byte is one RX_BYTE, and its step rule says what
happens (R70, R148; log entries 6 and 11). -/
def fetchWire (step : DecodeStep) (b : Byte) (bs : List Byte) (q : List HostInput) : Fetched :=
  if step = .start then
    match decodeFrame (b :: bs) with
    | .ok (i, rest) => .run i (pushWire rest q)
    | .error _ => .run (.rxByte b) (pushWire bs q)
  else .run (.rxByte b) (pushWire bs q)

/-- A host command, taken whole; what is no command is refused by name (R262, U10). -/
def fetchCommand (w : CmdWord) (q : List HostInput) : Fetched :=
  match decodeCommand w with
  | .ok i => .run i q
  | .error _ => .refuse (.notACommand w.code)

/-- The next instruction and the inbox after it. Bytes that are none are an empty chunk (R70, R253). -/
def fetch (s : State) : Fetched :=
  match s.inbox with
  | [] => .idle
  | .command w :: q => fetchCommand w q
  | .wire [] :: q => .run (.rxChunk []) q
  | .wire (b :: bs) :: q => fetchWire s.conn.decodeStep b bs q

/-- A state about to fetch `x`: it stands first in the inbox, and for bytes on RX the decoder is at START, where a
frame begins (R42). -/
def placeInput (x : HostInput) (s : State) : State :=
  match x with
  | .command w => { s with inbox := .command w :: s.inbox }
  | .wire bs =>
    { s with
      inbox := .wire bs :: s.inbox
      link := { s.link with conn := { s.link.conn with decodeStep := .start } } }

end Sys2Proof.Machine
end

