-- ==== Sys2Proof/Machine/Step.lean ====
section
/-!
DEFINITION. One step: fetch from the inbox and run; idle with an empty inbox (60_exceptions.md R302). And the placing of
an opcode-table word where the next step fetches it.
-/

namespace Sys2Proof.Machine

def step (s : State) : Host.Outcome State Fault Refusal :=
  match fetch s with
  | .idle => .next s
  | .run i left => exec i { s with inbox := left }
  | .refuse r => .refused r

/-- The table word stands where `step` fetches next (log entry 9). -/
def State.withFetchWord (s : State) (nbits w : Nat) : State := placeInput (tableInput nbits w) s

end Sys2Proof.Machine
end

