-- ==== Sys2Proof/Safety.lean ====
section
/-!
DEFINITION. The terms the claims use: the invariants of 10_state.md section 7, what an accepted frame leaves in the
Connection, what a violation leaves, and which instructions feed the decoder.
-/

namespace Sys2Proof.Machine

/-! ### Invariants -/

/-- The invariants of the Connection (R36 to R40, R26, R31), for every step. -/
structure Conn.Inv (c : Conn) : Prop where
  /-- R36. -/
  notAtEnd : c.decodeStep ≠ .endStep
  /-- R31, R40. -/
  ctrlLenFits : c.ctrlLen.toNat ≤ Config.ctrlMax
  /-- R33: values 6 to 255 are never written. -/
  errorCodeListed : c.errorCode.toNat ≤ 5
  /-- R34. -/
  noMaximumIsZero : c.maxPayloadEn = false → c.maxPayloadBytes = 0
  /-- R30. -/
  lastOpcodeListed : c.lastOpcode.toNat ≤ 2
  /-- R132: a reserved opcode never gets past START. -/
  opcodeDefined : c.decodeStep ≠ .start → isReserved (opcodeOf c.hdrByte0) = false
  /-- R170, R172. -/
  lastOpcodeIsOpcode : c.decodeStep ≠ .start →
    opcodeOf c.hdrByte0 = 0x1 ∨ opcodeOf c.hdrByte0 = 0x2 → c.lastOpcode = opcodeOf c.hdrByte0
  /-- R134, R38. -/
  maskAgrees : c.decodeStep ≠ .start → c.decodeStep ≠ .length → maskOf c.hdrByte1 = expectedMask c.role
  /-- R23, R26, R40, R102. -/
  shortLength : c.decodeStep = .shortLength →
    c.fieldIdx.toNat ≤ 1 ∧ c.hdrExtLen.toNat < 256 ^ c.fieldIdx.toNat ∧ len7Of c.hdrByte1 = 126 ∧
      isControl (opcodeOf c.hdrByte0) = false
  /-- R26, R149 a, R102. -/
  extendedLength : c.decodeStep = .extendedLength →
    c.hdrExtLen.toNat < 256 ^ c.fieldIdx.toNat ∧ len7Of c.hdrByte1 = 127 ∧
      isControl (opcodeOf c.hdrByte0) = false
  /-- R40, R99, R102, R34. -/
  key : c.decodeStep = .key →
    c.fieldIdx.toNat ≤ 3 ∧ maskOf c.hdrByte1 = true ∧
      (isControl (opcodeOf c.hdrByte0) = true → c.payloadBytesRemaining.toNat ≤ Config.ctrlMax) ∧
      exceeds c c.payloadBytesRemaining = false
  /-- R39, R31, R38, R34. -/
  data : c.decodeStep = .data →
    1 ≤ c.payloadBytesRemaining.toNat ∧
      (isControl (opcodeOf c.hdrByte0) = true →
        c.ctrlLen.toNat + c.payloadBytesRemaining.toNat ≤ Config.ctrlMax) ∧
      exceeds c c.payloadBytesRemaining = false ∧ (maskOf c.hdrByte1 = false → c.maskCounter = 0)

/-- Once an INIT has been executed, the Connection's invariants hold (R36 to R40; before it nothing is known, R320). -/
def State.Inv (s : State) : Prop := s.initialised = true → s.conn.Inv

/-! ### Running -/

/-- After INIT and not halted, at the given step. -/
structure State.At (s : State) (step : DecodeStep) : Prop where
  initialised : s.initialised = true
  noError : s.conn.errorCode = 0
  atStep : s.conn.decodeStep = step

/-- Several chunks, one RX_CHUNK each, in order (R253, R148). -/
def runChunks : List (List Byte) → State → Host.Outcome State Fault Refusal
  | [], s => .next s
  | c :: cs, s =>
    match exec (.rxChunk c) s with
    | .next t => runChunks cs t
    | .fault e => .fault e
    | .refused e => .refused e

/-- The instructions that feed bytes to the decoder, with those bytes; an outbound command, INIT and STATUS feed none. -/
def receivedBytes (i : Instr) : Option (List Byte) :=
  match i with
  | .rxByte b => some [b]
  | .rxChunk bs => some bs
  | .cont _ | .text _ | .bin _ | .close _ | .ping _ | .pong _ | .rsvd3 _ | .rsvd4 _ | .rsvd5 _ | .rsvd6 _ | .rsvd7 _
  | .rsvdB _ | .rsvdC _ | .rsvdD _ | .rsvdE _ | .rsvdF _ =>
    match encode i with
    | .wire bs => some bs
    | .command _ => none
  | .status | .init _ _ _ | .txFrame _ _ _ | .txClose _ | .txPing _ => none

/-- INIT, the one instruction that may rewrite the configuration and the sticky flags (R40). -/
def isInit : Instr → Bool
  | .init _ _ _ => true
  | _ => false

/-- The three commands that send for the host (R258). -/
def isOutbound : Instr → Bool
  | .txFrame _ _ _ => true
  | .txClose _ => true
  | .txPing _ => true
  | _ => false

/-! ### What an instruction leaves -/

/-- The state after a receiving instruction that ended with this link: its status by R252, R253. -/
def State.received (s : State) (l : Link) : State := { s with link := l, status := rxStatus l.conn, reply := none }

/-- The state after an instruction that leaves this Connection, emits `out` and returns `st`: the key source, the inbox
and the model's counters are as before. -/
def State.after (s : State) (c : Conn) (out : List Output) (st : Status) : State :=
  { s with link := { s.link with conn := c, output := s.link.output ++ out }, status := st, reply := none }

/-- The same for an instruction that sends one frame: one key is drawn when the role is CLIENT (R226). -/
def State.afterSend (s : State) (c : Conn) (out : List Output) (st : Status) : State :=
  { s with
    link := { (drawFor s.link).2 with conn := c, output := s.link.output ++ out }
    status := st
    reply := none }

/-- The state after the byte that ends a frame with a defined opcode (R146, R147): `c` is the Connection that byte has
left, its header and counters written, `control` the payload of a control frame, and nothing but what END does is
emitted. A close is echoed once and reported (R191), a ping is answered (R192), a pong is reported on request (R194), a
data frame gets its DLV_END beat (R173). -/
def State.afterEnd (s : State) (c : Conn) (control : List Byte) : State :=
  if opcodeOf c.hdrByte0 = 0x8 then
    if c.closeSent then s.after { c with decodeStep := .start } [.evShutdown] .ok
    else
      s.afterSend { c with decodeStep := .start, closeSent := true }
        [.tx (encodeTx c.role true 0x8 (drawFor s.link).1 control), .evShutdown] .ok
  else if opcodeOf c.hdrByte0 = 0x9 then
    s.afterSend { c with decodeStep := .start } [.tx (encodeTx c.role true 0xA (drawFor s.link).1 control)] .ok
  else if opcodeOf c.hdrByte0 = 0xA then
    s.after { c with decodeStep := .start }
      (if c.pongNotify then [.evPong (BitVec.ofNat 7 control.length)] else []) .ok
  else
    s.after { c with decodeStep := .start }
      [.dlvEnd (if finOf c.hdrByte0 then .finish else if opcodeOf c.hdrByte0 = 0x0 then .cont else .start)
        (c.lastOpcode == 0x2)]
      .ok

/-- The link after a violation: the code and the event, nothing else (R283). -/
def Link.halting (l : Link) (code : BitVec 8) : Link :=
  { l with conn := { l.conn with errorCode := code }, output := l.output ++ [.evError code] }

/-- This frame passes the checks of R134 and R135, R139, R141: its MASK bit is the one the role demands and its length
is within the maximum. -/
structure Conn.Accepts (c : Conn) (f : Frame) : Prop where
  maskAgrees : f.key.isSome = expectedMask c.role
  withinMaximum : exceeds c (BitVec.ofNat 64 f.payload.length) = false

/-- A control buffer with these bytes written from index 0 on (R190). -/
def writtenCtrl (buf : Vector Byte 125) (p : List Byte) : Vector Byte 125 := Vector.ofFn fun i => p.getD i.val buf[i.val]

/-- The Connection after a whole accepted frame, before what its opcode does at END: every header and datapath register
as R24 to R31 and R147 say; `closeSent`, `errorCode` and the configuration are untouched. -/
def Conn.afterFrame (c : Conn) (op : BitVec 4) (f : Frame) : Conn :=
  { c with
    decodeStep := .start
    fieldIdx :=
      if f.key.isSome then 3
      else if f.payload.length ≤ 125 then 0
      else if f.payload.length ≤ 65535 then 1
      else 7
    hdrByte0 := byte0 f.fin f.rsv op
    hdrByte1 :=
      byte1 f.key.isSome
        (if f.payload.length ≤ 125 then BitVec.ofNat 7 f.payload.length
        else if f.payload.length ≤ 65535 then 126
        else 127)
    hdrExtLen := if f.payload.length ≤ 125 then 0 else BitVec.ofNat 64 f.payload.length
    hdrKey := f.key.getD c.hdrKey
    payloadBytesRemaining := 0
    maskCounter := if f.key.isSome then BitVec.ofNat 2 f.payload.length else 0
    lastOpcode := nextLastOpcode op c.lastOpcode
    ctrlLen := if isControl op then BitVec.ofNat 7 f.payload.length else 0
    ctrlBuf := if isControl op then writtenCtrl c.ctrlBuf f.payload else c.ctrlBuf }

/-- The beats of a data frame: one per payload byte, then the end (R63, R171). -/
def beats (p : List Byte) (bin : Bool) (fs : FragState) : List Output := p.map (.dlvData · bin) ++ [.dlvEnd fs bin]

/-- An output element that is a frame on TX (R62, R79). -/
def isTx : Output → Bool
  | .tx _ => true
  | _ => false

/-- This instruction sends this frame: a command that is admitted (R255 to R258), or a PING or CLOSE frame that passes
the header checks and is answered (R191, R192). -/
inductive State.Sends (s : State) : Instr → Bool → BitVec 4 → List Byte → Prop
  | txFrame (fin : Bool) (op : BitVec 4) (p : List Byte) (admitted : isReserved op = false)
      (fits : isControl op = true → p.length ≤ 125) : s.Sends (.txFrame fin op p) fin op p
  | txClose (p : List Byte) (first : s.conn.closeSent = false) (fits : p.length ≤ 125) :
      s.Sends (.txClose p) true 0x8 p
  | txPing (p : List Byte) (fits : p.length ≤ 125) : s.Sends (.txPing p) true 0x9 p
  | ping (f : Frame) (ready : s.At .start) (accepted : s.conn.Accepts f) (fits : f.payload.length ≤ 125) :
      s.Sends (.ping f) true 0xA f.payload
  | close (f : Frame) (ready : s.At .start) (accepted : s.conn.Accepts f) (fits : f.payload.length ≤ 125)
      (first : s.conn.closeSent = false) : s.Sends (.close f) true 0x8 f.payload

/-- What a sending instruction emits after its frame: EV_SHUTDOWN when it is a received close (R191), else nothing. -/
def eventAfterSend : Instr → List Output
  | .close _ => [.evShutdown]
  | _ => []

/-- An output element that is a close frame on TX: opcode 0x8 in byte 0 (R95). -/
def isCloseFrame : Output → Bool
  | .tx (b0 :: _) => opcodeOf b0 == 0x8
  | _ => false

end Sys2Proof.Machine
end

