-- ==== Sys2Proof/Certificates/Slice0/Obligations.lean ====
section
/-!
DEFINITION. The statements for the provers, from the numbered rules of spec/. Each docstring names the rules; where a
rule carries a decision mark of 92_eei_decisions.md the decision is the spec's own and is named.
-/

open Sys2Proof Sys2Proof.Machine

/-! ### Encoding -/

/-- R90 to R105, R262: the decoder reads every well-formed instruction back from its own words. That a reserved opcode is
one byte long is log entry 10, that a command word carries its operands by name is log entry 5. -/
def Obligations.DecodeInvertsEncode : Prop :=
  ∀ i : Instr, i.wf = true → decode (encode i) = .ok (i, [])

/-- R104: the end of a frame is known by counting alone; whatever follows it on RX is left untouched
(a reserved opcode is one byte long: log entry 10). -/
def Obligations.FrameEndsByCountingAlone : Prop :=
  ∀ (i : Instr) (bs rest : List Byte), i.wf = true → encode i = .wire bs → decodeFrame (bs ++ rest) = .ok (i, rest)

/-- R100, R228: bytes that decode are the encoding of what they decode to, so each frame has exactly one encoding (a
reserved opcode is one byte long: log entry 10). -/
def Obligations.EachFrameHasOneEncoding : Prop :=
  ∀ (bs rest : List Byte) (i : Instr), decodeFrame bs = .ok (i, rest) →
    i.wf = true ∧ ∃ w, encode i = .wire w ∧ bs = w ++ rest

/-- R93, R95, R262, R195: words written out decode to the instructions they stand for. The frames have the spec's layout
(the number of TEXT is log entry 16). That a reserved opcode is one byte long and leaves the next byte is log entry 10,
deduced from R195; the command word has the spec's code, and its operands by name are the model's choice, log entry 5. -/
def Obligations.WrittenOutWordsDecode : Prop :=
  decodeFrame [0x81, 0x05, 0x48, 0x65, 0x6c, 0x6c, 0x6f] =
      .ok (.text ⟨true, 0, none, [0x48, 0x65, 0x6c, 0x6c, 0x6f]⟩, []) ∧
    decodeFrame [0x89, 0x84, 0x37, 0xfa, 0x21, 0x3d, 0x47, 0x93, 0x4f, 0x5a, 0x81] =
      .ok (.ping ⟨true, 0, some #v[0x37, 0xfa, 0x21, 0x3d], [0x70, 0x69, 0x6e, 0x67]⟩, [0x81]) ∧
    decodeFrame [0x83, 0x85] = .ok (.rsvd3 ⟨true, 0⟩, [0x85]) ∧
    decodeCommand { code := 5, bytes := [0x03, 0xe8] } = .ok (.txClose [0x03, 0xe8])

/-- R111: byte 0 selects the row by its low four bits; FIN and RSV take no part in it (D5; that a reserved
opcode leaves all bytes after byte 0 is log entry 10). -/
def Obligations.LowFourBitsSelectTheRow : Prop :=
  ∀ (b0 b0' : Byte) (rest rest' : List Byte) (i : Instr), opcodeOf b0 = opcodeOf b0' →
    decodeFrame (b0 :: rest) = .ok (i, rest') →
      i.wireOpcode = some (opcodeOf b0) ∧
        ∃ i', decodeFrame (b0' :: rest) = .ok (i', rest') ∧ i'.wireOpcode = i.wireOpcode

/-- R222: the three length forms and the bytes of each, `L[15:8]` being `L / 2^8 mod 2^8` and so on. -/
def Obligations.LengthFieldIsShortestAndBigEndian : Prop :=
  ∀ (m : Bool) (L : Nat), L < 2 ^ 64 →
    (L ≤ 125 → lenField m L = [BitVec.ofBool m ++ BitVec.ofNat 7 L]) ∧
      (125 < L → L ≤ 65535 →
        lenField m L = [BitVec.ofBool m ++ 126#7, BitVec.ofNat 8 (L / 2 ^ 8), BitVec.ofNat 8 L]) ∧
      (65535 < L →
        lenField m L =
          [BitVec.ofBool m ++ 127#7, BitVec.ofNat 8 (L / 2 ^ 56), BitVec.ofNat 8 (L / 2 ^ 48),
            BitVec.ofNat 8 (L / 2 ^ 40), BitVec.ofNat 8 (L / 2 ^ 32), BitVec.ofNat 8 (L / 2 ^ 24),
            BitVec.ofNat 8 (L / 2 ^ 16), BitVec.ofNat 8 (L / 2 ^ 8), BitVec.ofNat 8 L])

/-- R224: byte `i` is combined with key byte `i mod 4`, the index starting at 0 (D20, general knowledge G2). -/
def Obligations.MaskUsesKeyByteIMod4 : Prop :=
  ∀ (k : Key) (p : List Byte), (mask k p).length = p.length ∧
    ∀ (i : Nat) (h : i < p.length), (mask k p)[i]? = some (p[i] ^^^ k[i % 4]'(Nat.mod_lt i (Nat.zero_lt_succ 3)))

/-- R225: masking twice with one key gives the payload back. -/
def Obligations.MaskIsItsOwnInverse : Prop :=
  ∀ (k : Key) (p : List Byte), mask k (mask k p) = p

/-- R220, R221, R223, R227, R94: the fields and the size of every encoded frame (RSV 000: D12). -/
def Obligations.EncodedFrameShape : Prop :=
  ∀ (role : Role) (fin : Bool) (op : BitVec 4) (key : Key) (p : List Byte), ∃ b0 b1 rest,
    encodeTx role fin op key p = b0 :: b1 :: rest ∧ finOf b0 = fin ∧ rsvOf b0 = 0 ∧ opcodeOf b0 = op ∧
      (maskOf b1 = true ↔ role = .client) ∧
      (encodeTx role fin op key p).length = headerBytes (maskOf b1) (len7Of b1) + p.length ∧
      (role = .server → rest.drop (rest.length - p.length) = p) ∧
      (role = .client → rest.drop (rest.length - (4 + p.length)) = key.toList ++ mask key p)

/-- R229, R228: the decoder's length steps undo `LenField`. Whatever the role and the maximum, no length it writes is
judged non-minimal; and when the mask direction, the control limit and the maximum allow it, the length comes back. -/
def Obligations.DecoderUndoesLengthField : Prop :=
  ∀ (l : Link) (m : Bool) (L : Nat), l.conn.errorCode = 0 → l.conn.decodeStep = .length → L < 2 ^ 64 →
    ∃ l', rxBytes (lenField m L) l = .next l' ∧ l'.conn.errorCode ≠ 3 ∧
      (m = expectedMask l.conn.role → (isControl (opcodeOf l.conn.hdrByte0) = true → L ≤ 125) →
        exceeds l.conn (BitVec.ofNat 64 L) = false →
          l'.conn.errorCode = 0 ∧ l'.conn.payloadBytesRemaining.toNat = L ∧ maskOf l'.conn.hdrByte1 = m)

/-- R231: a data frame encoded by one end and fed to the other end, in any chunks, is delivered byte for byte with its
fragment state, and the decoder is back at START. -/
def Obligations.RoundTripAcrossTheLink : Prop :=
  ∀ (s : State) (sender : Role) (fin : Bool) (op : BitVec 4) (key : Key) (p : List Byte) (chunks : List (List Byte)),
    s.At .start → s.conn.role ≠ sender → op = 0x1 ∨ op = 0x2 → p.length < 2 ^ 64 →
      exceeds s.conn (BitVec.ofNat 64 p.length) = false → chunks.flatten = encodeTx sender fin op key p →
        ∃ t, runChunks chunks s = .next t ∧ t.conn.errorCode = 0 ∧ t.conn.decodeStep = .start ∧
          t.link.output =
            s.link.output ++ (p.map (.dlvData · (op == 0x2)) ++ [.dlvEnd (if fin then .finish else .start) (op == 0x2)])

/-! ### The decoder's step rules, one byte each -/

/-- R131: an accepted byte 0 is stored, a TEXT or BIN opcode is remembered, and LENGTH follows; nothing is emitted. -/
def Obligations.StartAcceptsByteZero : Prop :=
  ∀ (s : State) (b : Byte), s.At .start → isReserved (opcodeOf b) = false →
    exec (.rxByte b) s =
      .next
        (s.after
          { s.conn with
            hdrByte0 := b
            lastOpcode := if opcodeOf b = 0x1 ∨ opcodeOf b = 0x2 then opcodeOf b else s.conn.lastOpcode
            decodeStep := .length }
          [] .ok)

/-- R132, R195: a reserved opcode raises violation 1 on byte 0; byte 0 is not stored (D9). -/
def Obligations.StartRefusesReservedOpcode : Prop :=
  ∀ (s : State) (b : Byte), s.At .start → isReserved (opcodeOf b) = true →
    exec (.rxByte b) s = .next (s.after { s.conn with errorCode := 1 } [.evError 1] .halted)

/-- R133, R134, R135, R284: the three checks of byte 1 and their order (D10). -/
def Obligations.LengthByteChecksInOrder : Prop :=
  ∀ (s : State) (b : Byte), s.At .length →
    ((s.conn.role = .server ∧ maskOf b = false ∨ s.conn.role = .client ∧ maskOf b = true) →
        exec (.rxByte b) s = .next (s.after { s.conn with errorCode := 2 } [.evError 2] .halted)) ∧
      (maskOf b = expectedMask s.conn.role → isControl (opcodeOf s.conn.hdrByte0) = true → 126 ≤ (len7Of b).toNat →
        exec (.rxByte b) s = .next (s.after { s.conn with errorCode := 4 } [.evError 4] .halted)) ∧
      (maskOf b = expectedMask s.conn.role → (len7Of b).toNat ≤ 125 → s.conn.maxPayloadEn = true →
        s.conn.maxPayloadBytes.toNat < (len7Of b).toNat →
        exec (.rxByte b) s = .next (s.after { s.conn with errorCode := 5 } [.evError 5] .halted))

/-- R133, R136, R137, R142, R144, R146, R177: an accepted byte 1 and the five places it leads to; the fifth is the end
of an empty unmasked frame, with what END does for its opcode (D3). -/
def Obligations.LengthByteAccepted : Prop :=
  ∀ (s : State) (b : Byte), s.At .length → maskOf b = expectedMask s.conn.role →
    (isControl (opcodeOf s.conn.hdrByte0) = true → (len7Of b).toNat ≤ 125) →
    ((len7Of b).toNat ≤ 125 → s.conn.maxPayloadEn = true → (len7Of b).toNat ≤ s.conn.maxPayloadBytes.toNat) →
    (len7Of b = 126 →
        exec (.rxByte b) s =
          .next (s.after { s.conn with hdrByte1 := b, hdrExtLen := 0, fieldIdx := 0, decodeStep := .shortLength } [] .ok)) ∧
      (len7Of b = 127 →
        exec (.rxByte b) s =
          .next
            (s.after { s.conn with hdrByte1 := b, hdrExtLen := 0, fieldIdx := 0, decodeStep := .extendedLength } [] .ok)) ∧
      ((len7Of b).toNat ≤ 125 → maskOf b = true →
        exec (.rxByte b) s =
          .next
            (s.after
              { s.conn with
                hdrByte1 := b
                hdrExtLen := 0
                fieldIdx := 0
                payloadBytesRemaining := BitVec.ofNat 64 (len7Of b).toNat
                decodeStep := .key }
              [] .ok)) ∧
      (1 ≤ (len7Of b).toNat → (len7Of b).toNat ≤ 125 → maskOf b = false →
        exec (.rxByte b) s =
          .next
            (s.after
              { s.conn with
                hdrByte1 := b
                hdrExtLen := 0
                fieldIdx := 0
                payloadBytesRemaining := BitVec.ofNat 64 (len7Of b).toNat
                maskCounter := 0
                ctrlLen := 0
                decodeStep := .data }
              [] .ok)) ∧
      (len7Of b = 0 → maskOf b = false → isReserved (opcodeOf s.conn.hdrByte0) = false →
        exec (.rxByte b) s =
          .next
            (s.afterEnd
              { s.conn with
                hdrByte1 := b
                hdrExtLen := 0
                fieldIdx := 0
                payloadBytesRemaining := 0
                maskCounter := 0
                ctrlLen := 0 }
              []))

/-- R138, R139: the two bytes of the short form, the checks of the second in their order (D10), and where an accepted
length leads. The value judged is the register with the byte shifted in. -/
def Obligations.ShortLengthBytes : Prop :=
  ∀ (s : State) (b : Byte) (v : BitVec 64), s.At .shortLength → v = s.conn.hdrExtLen.extractLsb' 0 56 ++ b →
    (s.conn.fieldIdx = 0 →
        exec (.rxByte b) s = .next (s.after { s.conn with hdrExtLen := v, fieldIdx := 1 } [] .ok)) ∧
      (s.conn.fieldIdx = 1 → v.toNat < 126 →
        exec (.rxByte b) s = .next (s.after { s.conn with errorCode := 3 } [.evError 3] .halted)) ∧
      (s.conn.fieldIdx = 1 → 126 ≤ v.toNat → exceeds s.conn v = true →
        exec (.rxByte b) s = .next (s.after { s.conn with errorCode := 5 } [.evError 5] .halted)) ∧
      (s.conn.fieldIdx = 1 → 126 ≤ v.toNat → exceeds s.conn v = false →
        exec (.rxByte b) s =
          .next
            (s.after
              (if maskOf s.conn.hdrByte1 then
                { s.conn with hdrExtLen := v, payloadBytesRemaining := v, decodeStep := .key, fieldIdx := 0 }
              else
                { s.conn with
                  hdrExtLen := v
                  payloadBytesRemaining := v
                  maskCounter := 0
                  ctrlLen := 0
                  decodeStep := .data })
              [] .ok))

/-- R140, R141: the eight bytes of the long form, the checks of the last in their order (D10), and where an accepted
length leads. -/
def Obligations.ExtendedLengthBytes : Prop :=
  ∀ (s : State) (b : Byte) (v : BitVec 64), s.At .extendedLength → v = s.conn.hdrExtLen.extractLsb' 0 56 ++ b →
    (s.conn.fieldIdx.toNat < 7 →
        exec (.rxByte b) s =
          .next (s.after { s.conn with hdrExtLen := v, fieldIdx := s.conn.fieldIdx + 1 } [] .ok)) ∧
      (s.conn.fieldIdx = 7 → v.toNat < 65536 →
        exec (.rxByte b) s = .next (s.after { s.conn with errorCode := 3 } [.evError 3] .halted)) ∧
      (s.conn.fieldIdx = 7 → 65536 ≤ v.toNat → exceeds s.conn v = true →
        exec (.rxByte b) s = .next (s.after { s.conn with errorCode := 5 } [.evError 5] .halted)) ∧
      (s.conn.fieldIdx = 7 → 65536 ≤ v.toNat → exceeds s.conn v = false →
        exec (.rxByte b) s =
          .next
            (s.after
              (if maskOf s.conn.hdrByte1 then
                { s.conn with hdrExtLen := v, payloadBytesRemaining := v, decodeStep := .key, fieldIdx := 0 }
              else
                { s.conn with
                  hdrExtLen := v
                  payloadBytesRemaining := v
                  maskCounter := 0
                  ctrlLen := 0
                  decodeStep := .data })
              [] .ok))

/-- R143, R144, R146, R177: the four key bytes; the fourth enters DATA when the length is not 0, and ends an empty frame
with what END does for its opcode (D3). -/
def Obligations.KeyBytes : Prop :=
  ∀ (s : State) (b : Byte) (h : s.conn.fieldIdx.toNat < 4), s.At .key →
    (s.conn.fieldIdx.toNat < 3 →
        exec (.rxByte b) s =
          .next
            (s.after
              { s.conn with
                hdrKey := s.conn.hdrKey.set s.conn.fieldIdx.toNat b h
                fieldIdx := s.conn.fieldIdx + 1 }
              [] .ok)) ∧
      (s.conn.fieldIdx = 3 → s.conn.payloadBytesRemaining ≠ 0 →
        exec (.rxByte b) s =
          .next
            (s.after
              { s.conn with
                hdrKey := s.conn.hdrKey.set s.conn.fieldIdx.toNat b h
                maskCounter := 0
                ctrlLen := 0
                decodeStep := .data }
              [] .ok)) ∧
      (s.conn.fieldIdx = 3 → s.conn.payloadBytesRemaining = 0 → isReserved (opcodeOf s.conn.hdrByte0) = false →
        exec (.rxByte b) s =
          .next
            (s.afterEnd
              { s.conn with
                hdrKey := s.conn.hdrKey.set s.conn.fieldIdx.toNat b h
                maskCounter := 0
                ctrlLen := 0 }
              []))

/-- R145, R146: a payload byte of a data frame is unmasked and delivered at once; the last one also ends the frame. -/
def Obligations.DataFramePayloadByte : Prop :=
  ∀ (s : State) (b u : Byte) (c : Conn), s.At .data → isData (opcodeOf s.conn.hdrByte0) = true →
    u = (if maskOf s.conn.hdrByte1 then b ^^^ s.conn.hdrKey[s.conn.maskCounter.toNat]'s.conn.maskCounter.isLt else b) →
    c =
      { s.conn with
        maskCounter := if maskOf s.conn.hdrByte1 then s.conn.maskCounter + 1 else s.conn.maskCounter
        payloadBytesRemaining := s.conn.payloadBytesRemaining - 1 } →
    (1 < s.conn.payloadBytesRemaining.toNat →
        exec (.rxByte b) s = .next (s.after c [.dlvData u (s.conn.lastOpcode == 0x2)] .ok)) ∧
      (s.conn.payloadBytesRemaining = 1 →
        exec (.rxByte b) s =
          .next
            (s.after { c with decodeStep := .start }
              [.dlvData u (s.conn.lastOpcode == 0x2),
                .dlvEnd
                  (if finOf s.conn.hdrByte0 then .finish else if opcodeOf s.conn.hdrByte0 = 0x0 then .cont else .start)
                  (s.conn.lastOpcode == 0x2)]
              .ok))

/-- R145, R190, R146, R191, R192, R194: a payload byte of a control frame is unmasked and stored at `ctrlBuf[ctrlLen]`,
and nothing is delivered; the last one ends the frame with what END does for a close, a ping or a pong whose payload is
all that was stored (D7, D17, D18, D32). -/
def Obligations.ControlFramePayloadByte : Prop :=
  ∀ (s : State) (b u : Byte) (c : Conn) (h : s.conn.ctrlLen.toNat < 125), s.At .data →
    isControl (opcodeOf s.conn.hdrByte0) = true →
    u = (if maskOf s.conn.hdrByte1 then b ^^^ s.conn.hdrKey[s.conn.maskCounter.toNat]'s.conn.maskCounter.isLt else b) →
    c =
      { s.conn with
        maskCounter := if maskOf s.conn.hdrByte1 then s.conn.maskCounter + 1 else s.conn.maskCounter
        payloadBytesRemaining := s.conn.payloadBytesRemaining - 1
        ctrlBuf := s.conn.ctrlBuf.set s.conn.ctrlLen.toNat u h
        ctrlLen := s.conn.ctrlLen + 1 } →
    (1 < s.conn.payloadBytesRemaining.toNat → exec (.rxByte b) s = .next (s.after c [] .ok)) ∧
      (s.conn.payloadBytesRemaining = 1 →
        exec (.rxByte b) s = .next (s.afterEnd c (s.conn.ctrlBuf.toList.take s.conn.ctrlLen.toNat ++ [u])))

/-- R130, R37, R36: the sequencer moves only along the edges of the transition table. It stays where it is only in a step
of several bytes, or when the byte raises a violation or is dropped. From a state that meets the invariants it is not at
END afterwards (D3). -/
def Obligations.SequencerFollowsTransitionTable : Prop :=
  ∀ (s t : State) (b : Byte), exec (.rxByte b) s = .next t →
    ((s.conn.decodeStep, t.conn.decodeStep) ∈
          [(DecodeStep.start, DecodeStep.length), (.length, .shortLength), (.length, .extendedLength), (.length, .key),
            (.length, .data), (.length, .start), (.shortLength, .key), (.shortLength, .data), (.extendedLength, .key),
            (.extendedLength, .data), (.key, .data), (.key, .start), (.data, .start)] ∨
        s.conn.decodeStep = t.conn.decodeStep ∧
          (t.conn.errorCode ≠ 0 ∨
            s.conn.decodeStep ∈ [DecodeStep.shortLength, .extendedLength, .key, .data])) ∧
      (s.conn.Inv → t.conn.decodeStep ≠ .endStep)

/-- R75: what one byte can emit, and in which order (D27). -/
def Obligations.OutputOrderOfOneByte : Prop :=
  ∀ (s t : State) (b : Byte), exec (.rxByte b) s = .next t → ∃ out, t.link.output = s.link.output ++ out ∧
    (out = [] ∨ (∃ u bin, out = [.dlvData u bin]) ∨ (∃ u bin fs, out = [.dlvData u bin, .dlvEnd fs bin]) ∨
      (∃ fs bin, out = [.dlvEnd fs bin]) ∨ (∃ bs, out = [.tx bs, .evShutdown]) ∨ out = [.evShutdown] ∨
      (∃ bs, out = [.tx bs]) ∨ (∃ n, out = [.evPong n]) ∨
      (out = [.evError t.conn.errorCode] ∧ t.conn.errorCode ≠ 0 ∧ s.conn.errorCode = 0))

/-! ### Violations -/

/-- R283, R285: a byte that raises a violation writes the code and emits EV_ERROR, and does nothing else (D9). -/
def Obligations.ViolationChangesOnlyErrorCode : Prop :=
  ∀ (s t : State) (b : Byte), s.conn.errorCode = 0 → exec (.rxByte b) s = .next t → t.conn.errorCode ≠ 0 →
    t = s.after { s.conn with errorCode := t.conn.errorCode } [.evError t.conn.errorCode] .halted ∧
      t.conn.errorCode.toNat ≤ 5

/-- R286: a halted decoder drops every byte: every receiving instruction, all sixteen frames among them, changes
nothing and returns HALTED (D9). -/
def Obligations.HaltedDecoderDropsBytes : Prop :=
  ∀ (s : State) (i : Instr) (bs : List Byte), s.initialised = true → s.conn.errorCode ≠ 0 →
    receivedBytes i = some bs → exec i s = .next (s.after s.conn [] .halted)

/-- R134, R103 (90_conflicts.md C1): a whole frame whose MASK bit is wrong for the role raises violation 2 on byte 1,
whatever its opcode; the rest of it is dropped. -/
def Obligations.WrongMaskDirectionHalts : Prop :=
  ∀ (s : State) (op : BitVec 4) (f : Frame) (i : Instr), s.At .start → frameInstr op f = some i →
    (s.conn.role = .server ∧ f.key = none ∨ s.conn.role = .client ∧ f.key ≠ none) →
      exec i s =
        .next
          (s.after
            { s.conn with
              hdrByte0 := byte0 f.fin f.rsv op
              lastOpcode := if op = 0x1 ∨ op = 0x2 then op else s.conn.lastOpcode
              decodeStep := .length
              errorCode := 2 }
            [.evError 2] .halted)

/-- R101, R135, R139, R141: a whole frame longer than the maximum raises violation 5 when its length is complete, and
nothing of it is delivered, stored or answered (D16). -/
def Obligations.FrameOverMaximumHalts : Prop :=
  ∀ (s : State) (op : BitVec 4) (f : Frame) (i : Instr), s.At .start → frameInstr op f = some i → i.wf = true →
    f.key.isSome = expectedMask s.conn.role → s.conn.maxPayloadEn = true →
    s.conn.maxPayloadBytes.toNat < f.payload.length →
      ∃ t, exec i s = .next t ∧ t.conn.errorCode = 5 ∧ t.status = .halted ∧ t.inbox = s.inbox ∧
        t.link = { s.link with conn := t.conn, output := s.link.output ++ [.evError 5] } ∧
        t.conn.payloadBytesRemaining = s.conn.payloadBytesRemaining ∧ t.conn.ctrlBuf = s.conn.ctrlBuf ∧
        t.conn.ctrlLen = s.conn.ctrlLen ∧ t.conn.closeSent = s.conn.closeSent

/-- R102, R101, R135: a control opcode with base length 126 or 127 raises violation 4 on byte 1; what follows is
dropped (D10). -/
def Obligations.OversizedControlFrameHalts : Prop :=
  ∀ (s : State) (b0 b1 : Byte) (rest : List Byte), s.At .start → isControl (opcodeOf b0) = true →
    maskOf b1 = expectedMask s.conn.role → 126 ≤ (len7Of b1).toNat →
      exec (.rxChunk (b0 :: b1 :: rest)) s =
        .next (s.after { s.conn with hdrByte0 := b0, decodeStep := .length, errorCode := 4 } [.evError 4] .halted)

/-- R100, R101, R139, R141: a length that does not use the shortest form raises violation 3 on its last byte, whatever
the maximum; what follows is dropped (D10). -/
def Obligations.NonMinimalLengthHalts : Prop :=
  ∀ (s : State) (b0 b1 : Byte) (ext rest : List Byte), s.At .start → isData (opcodeOf b0) = true →
    maskOf b1 = expectedMask s.conn.role →
    (len7Of b1 = 126 ∧ ext.length = 2 ∧ (lengthOf ext).toNat < 126 ∨
      len7Of b1 = 127 ∧ ext.length = 8 ∧ (lengthOf ext).toNat < 65536) →
      ∃ t, exec (.rxChunk (b0 :: b1 :: (ext ++ rest))) s = .next t ∧ t.conn.errorCode = 3 ∧ t.status = .halted ∧
        t.link = { s.link with conn := t.conn, output := s.link.output ++ [.evError 3] } ∧
        t.conn.hdrByte0 = b0 ∧ t.conn.hdrByte1 = b1 ∧
        t.conn.payloadBytesRemaining = s.conn.payloadBytesRemaining

/-! ### Whole frames -/

/-- R174, R171, R173, R177: a TEXT frame is delivered byte for byte with `bin = 0` and ends with FINISH or START (D4, D13).
The registers it leaves rest on D6, D14, D20 and D31; that the frame is one instruction and the start of the mask are log
entries 6 and 16. -/
def Obligations.TextFrameDelivered : Prop :=
  ∀ (s : State) (f : Frame), s.At .start → s.conn.Accepts f → f.payload.length < 2 ^ 64 →
    exec (.text f) s =
      .next
        (s.after (s.conn.afterFrame 0x1 f)
          (f.payload.map (.dlvData · false) ++ [.dlvEnd (if f.fin then .finish else .start) false]) .ok)

/-- R175, R171, R173, R177: a BIN frame, as TEXT with `bin = 1`, resting on the same decisions (D4, D6, D13, D14, D20,
D31; log entries 6 and 16). -/
def Obligations.BinFrameDelivered : Prop :=
  ∀ (s : State) (f : Frame), s.At .start → s.conn.Accepts f → f.payload.length < 2 ^ 64 →
    exec (.bin f) s =
      .next
        (s.after (s.conn.afterFrame 0x2 f)
          (f.payload.map (.dlvData · true) ++ [.dlvEnd (if f.fin then .finish else .start) true]) .ok)

/-- R176, R172, R173, R178: a CONT frame takes its `bin` from the last TEXT or BIN frame (D14) and ends with FINISH or
CONTINUE (D4, D13); no message need be open (D15). The registers it leaves rest on D6, D20 and D31; log entries 6 and
16 as for TEXT. -/
def Obligations.ContFrameDelivered : Prop :=
  ∀ (s : State) (f : Frame), s.At .start → s.conn.Accepts f → f.payload.length < 2 ^ 64 →
    exec (.cont f) s =
      .next
        (s.after (s.conn.afterFrame 0x0 f)
          (f.payload.map (.dlvData · (s.conn.lastOpcode == 0x2)) ++
            [.dlvEnd (if f.fin then .finish else .cont) (s.conn.lastOpcode == 0x2)])
          .ok)

/-- R191, R32: a CLOSE frame is echoed with its own payload when no close was sent yet, never a second time, and is
always reported (D17). The registers it leaves rest on D6, D7, D20 and D31; log entries 6 and 16. -/
def Obligations.CloseFrameEchoedOnce : Prop :=
  ∀ (s : State) (f : Frame), s.At .start → s.conn.Accepts f → f.payload.length ≤ 125 →
    (s.conn.closeSent = false →
        exec (.close f) s =
          .next
            (s.afterSend { s.conn.afterFrame 0x8 f with closeSent := true }
              [.tx (encodeTx s.conn.role true 0x8 (drawFor s.link).1 f.payload), .evShutdown] .ok)) ∧
      (s.conn.closeSent = true →
        exec (.close f) s = .next (s.after (s.conn.afterFrame 0x8 f) [.evShutdown] .ok))

/-- R192: a PING frame is answered by a pong with FIN 1 and the identical payload; `closeSent` plays no part (D32).
The registers it leaves rest on D6, D7, D20 and D31; log entries 6 and 16. -/
def Obligations.PingFrameAnswered : Prop :=
  ∀ (s : State) (f : Frame), s.At .start → s.conn.Accepts f → f.payload.length ≤ 125 →
    exec (.ping f) s =
      .next
        (s.afterSend (s.conn.afterFrame 0x9 f)
          [.tx (encodeTx s.conn.role true 0xA (drawFor s.link).1 f.payload)] .ok)

/-- R194, R190: a PONG frame is reported only when the host asked for it, and its payload can then be read from the
control buffer (D18). The registers it leaves rest on D6, D7, D20 and D31; log entries 6 and 16. -/
def Obligations.PongFrameReportedOnRequest : Prop :=
  ∀ (s : State) (f : Frame), s.At .start → s.conn.Accepts f → f.payload.length ≤ 125 →
    exec (.pong f) s =
        .next
          (s.after (s.conn.afterFrame 0xA f)
            (if s.conn.pongNotify then [.evPong (BitVec.ofNat 7 f.payload.length)] else []) .ok) ∧
      (s.conn.afterFrame 0xA f).ctrlBuf.toList.take (s.conn.afterFrame 0xA f).ctrlLen.toNat = f.payload

/-- R195, R96: the ten reserved opcodes behave alike: violation 1 on byte 0, nothing else (code D8, one byte long: log
entry 10). -/
def Obligations.ReservedFramesHalt : Prop :=
  ∀ (s : State) (h : Head), s.At .start →
    ∀ i ∈ [Instr.rsvd3 h, .rsvd4 h, .rsvd5 h, .rsvd6 h, .rsvd7 h, .rsvdB h, .rsvdC h, .rsvdD h, .rsvdE h, .rsvdF h],
      exec i s = .next (s.after { s.conn with errorCode := 1 } [.evError 1] .halted)

/-- R173, R172 (95_test_vectors.md S4): a TEXT or BIN message in three frames with FIN 0, 0, 1 is delivered as START,
CONTINUE, FINISH, all three with the type of the first; a ping in between changes neither and is answered by its pong. -/
def Obligations.ThreeFragmentsKeepTheirType : Prop :=
  ∀ (s : State) (bin : Bool) (f₁ f₂ f₃ g : Frame), s.At .start → s.conn.Accepts f₁ → s.conn.Accepts f₂ →
    s.conn.Accepts f₃ → s.conn.Accepts g → f₁.payload.length < 2 ^ 64 → f₂.payload.length < 2 ^ 64 →
    f₃.payload.length < 2 ^ 64 → g.payload.length ≤ 125 → f₁.fin = false → f₂.fin = false → f₃.fin = true →
      ∃ t₁ t₂ t₃ t₄, exec (if bin then .bin f₁ else .text f₁) s = .next t₁ ∧ exec (.cont f₂) t₁ = .next t₂ ∧
        exec (.ping g) t₂ = .next t₃ ∧ exec (.cont f₃) t₃ = .next t₄ ∧
        t₄.link.output =
          s.link.output ++ beats f₁.payload bin .start ++ beats f₂.payload bin .cont ++
            [.tx (encodeTx s.conn.role true 0xA (drawFor s.link).1 g.payload)] ++ beats f₃.payload bin .finish

/-- R97, R106: the RSV bits of a frame have no effect but to be kept in `hdr.byte0` (D12). -/
def Obligations.ReservedBitsAreIgnored : Prop :=
  ∀ (s : State) (op : BitVec 4) (f : Frame) (r : BitVec 3) (i j : Instr), s.At .start → i.wf = true →
    frameInstr op f = some i → frameInstr op { f with rsv := r } = some j →
      ∃ t, exec i s = .next t ∧
        exec j s =
          .next { t with link := { t.link with conn := { t.conn with hdrByte0 := byte0 f.fin r op } } }

/-! ### Host commands -/

/-- R251, R42, R321: INIT sets every field of the Connection, from any state, and emits nothing (D24); the control
buffer alone is left open (R31). Its arguments are the open parameters of R6. -/
def Obligations.InitSetsEveryField : Prop :=
  ∀ (s : State) (role : Role) (maxPayload : Option (BitVec 64)) (pongNotify : Bool), ∃ buf,
    exec (.init role maxPayload pongNotify) s =
      .next
        { s with
          link :=
            { s.link with
              conn :=
                { role := role
                  maxPayloadEn := maxPayload.isSome
                  maxPayloadBytes := maxPayload.getD 0
                  pongNotify := pongNotify
                  decodeStep := .start
                  fieldIdx := 0
                  hdrByte0 := 0
                  hdrByte1 := 0
                  hdrExtLen := 0
                  hdrKey := #v[0, 0, 0, 0]
                  payloadBytesRemaining := 0
                  maskCounter := 0
                  lastOpcode := 0
                  ctrlBuf := buf
                  ctrlLen := 0
                  closeSent := false
                  errorCode := 0 } }
          initialised := true
          status := .ok
          reply := none
          freeReads := s.freeReads + 1 }

/-- R320, U7: before the first INIT no other instruction has a meaning (D24; the flag is log entry 1). -/
def Obligations.NothingButInitBeforeInit : Prop :=
  ∀ (s : State) (i : Instr), s.initialised = false → isInit i = false → exec i s = .refused .beforeInit

/-- R252, R253: RX_BYTE and every frame instruction are the RX_CHUNK of their bytes, in every state (log entry 6); and
RX_CHUNK answers a next state for every byte sequence, from every state that meets the invariants of R36 to R40: the
status is HALTED exactly when `errorCode` is not 0 at the end, and the configuration, the inbox and the model's counters
are untouched. -/
def Obligations.ReceptionCompletes : Prop :=
  (∀ (s : State) (i : Instr) (bs : List Byte), receivedBytes i = some bs → exec i s = exec (.rxChunk bs) s) ∧
    ∀ (s : State) (bs : List Byte), s.initialised = true → s.conn.Inv → ∃ t, exec (.rxChunk bs) s = .next t ∧
      t = { s with link := t.link, status := if t.conn.errorCode = 0 then .ok else .halted, reply := none } ∧
      t.conn.role = s.conn.role ∧ t.conn.maxPayloadEn = s.conn.maxPayloadEn ∧
      t.conn.maxPayloadBytes = s.conn.maxPayloadBytes ∧ t.conn.pongNotify = s.conn.pongNotify

/-- R253: a chunk is its bytes, one RX_BYTE each, in order. -/
def Obligations.ChunkIsItsBytesInOrder : Prop :=
  ∀ (s : State) (b : Byte) (bs : List Byte), s.initialised = true →
    exec (.rxChunk []) s = .next (s.after s.conn [] (if s.conn.errorCode = 0 then .ok else .halted)) ∧
      exec (.rxChunk (b :: bs)) s =
        match exec (.rxByte b) s with
        | .next t => exec (.rxChunk bs) t
        | .fault e => .fault e
        | .refused e => .refused e

/-- R148, R70: how a byte sequence is cut into chunks makes no difference. -/
def Obligations.ChunkBoundariesCarryNoMeaning : Prop :=
  ∀ (s : State) (c : List Byte) (cs : List (List Byte)), s.initialised = true →
    runChunks (c :: cs) s = exec (.rxChunk (c :: cs).flatten) s

/-- R255, R258, R259: TX_FRAME refuses a reserved opcode, then an oversize control frame, each without any effect;
otherwise it sends one frame and changes nothing of the Connection, `closeSent` included, halted or not (D21, D23). The
payload has any length; from 2^64 bytes on the eight length bytes of the frame are free (R220; log entry 12). -/
def Obligations.TxFrameSendsOrRefuses : Prop :=
  ∀ (s : State) (fin : Bool) (op : BitVec 4) (p : List Byte), s.initialised = true →
    (isReserved op = true → exec (.txFrame fin op p) s = .next (s.after s.conn [] .refusedOpcode)) ∧
      (isControl op = true → 125 < p.length →
        exec (.txFrame fin op p) s = .next (s.after s.conn [] .refusedOversize)) ∧
      (isReserved op = false → (isControl op = true → p.length ≤ 125) →
        exec (.txFrame fin op p) s =
          .next (s.afterSend s.conn [.tx (encodeTx s.conn.role fin op (drawFor s.link).1 p)] .ok))

/-- R256: TX_CLOSE sends one close and sets `closeSent`; when it was set, or the payload is over 125 bytes, in this
order, it has no effect but its status (D21, D22). EV_SHUTDOWN is not emitted. -/
def Obligations.TxCloseSendsOnce : Prop :=
  ∀ (s : State) (p : List Byte), s.initialised = true →
    (s.conn.closeSent = true → exec (.txClose p) s = .next (s.after s.conn [] .alreadyClosed)) ∧
      (s.conn.closeSent = false → 125 < p.length →
        exec (.txClose p) s = .next (s.after s.conn [] .refusedOversize)) ∧
      (s.conn.closeSent = false → p.length ≤ 125 →
        exec (.txClose p) s =
          .next
            (s.afterSend { s.conn with closeSent := true }
              [.tx (encodeTx s.conn.role true 0x8 (drawFor s.link).1 p)] .ok))

/-- R257: TX_PING sends one ping and changes nothing of the Connection; a payload over 125 bytes is refused (D21). -/
def Obligations.TxPingSends : Prop :=
  ∀ (s : State) (p : List Byte), s.initialised = true →
    (125 < p.length → exec (.txPing p) s = .next (s.after s.conn [] .refusedOversize)) ∧
      (p.length ≤ 125 →
        exec (.txPing p) s =
          .next (s.afterSend s.conn [.tx (encodeTx s.conn.role true 0x9 (drawFor s.link).1 p)] .ok))

/-- R226, R223, R220, R191: whatever makes the codec send a frame, a CLIENT draws one key for it, the first the source
has ready or else a free one (log entry 4), and masks with it; a SERVER draws none and sends the payload as it is (D19).
A received close that is echoed is followed by EV_SHUTDOWN, and no other sending instruction emits more than its frame
(D17). -/
def Obligations.OneKeyDrawnPerClientFrame : Prop :=
  ∀ (s : State) (i : Instr) (fin : Bool) (op : BitVec 4) (p : List Byte), s.initialised = true → s.Sends i fin op p →
    (s.conn.role = .server → ∃ t, exec i s = .next t ∧ t.link.keys = s.link.keys ∧ t.link.draws = s.link.draws ∧
        t.link.output =
          s.link.output ++ .tx (byte0 fin 0 op :: (lenField false p.length ++ p)) :: eventAfterSend i) ∧
      (∀ k ks, s.conn.role = .client → s.link.keys = k :: ks → ∃ t, exec i s = .next t ∧ t.link.keys = ks ∧
        t.link.draws = s.link.draws ∧
        t.link.output =
          s.link.output ++
            .tx (byte0 fin 0 op :: (lenField true p.length ++ (k.toList ++ mask k p))) :: eventAfterSend i) ∧
      (∀ k, s.conn.role = .client → s.link.keys = [] → k = Config.freeKey s.link.draws →
        ∃ t, exec i s = .next t ∧ t.link.keys = [] ∧ t.link.draws = s.link.draws + 1 ∧
          t.link.output =
            s.link.output ++
              .tx (byte0 fin 0 op :: (lenField true p.length ++ (k.toList ++ mask k p))) :: eventAfterSend i)

/-- R261, R35: STATUS returns every field of the Connection, the control buffer below `ctrlLen` included, and changes
nothing of it and emits nothing (D28). -/
def Obligations.StatusCopiesEveryField : Prop :=
  ∀ (s : State), s.initialised = true → ∃ copy,
    exec .status s = .next { s with status := .ok, reply := some copy, freeReads := s.freeReads + 1 } ∧
      copy = { s.conn with ctrlBuf := copy.ctrlBuf } ∧
      ∀ (i : Nat) (h : i < 125), i < s.conn.ctrlLen.toNat → copy.ctrlBuf[i] = s.conn.ctrlBuf[i]

/-- R230, R259: an outbound command reads the role, `closeSent` and the key source and nothing else: not `errorCode`, not
the decoder's registers (D23). -/
def Obligations.OutboundReadsOnlyRoleAndCloseSent : Prop :=
  ∀ (s s' : State) (i : Instr), isOutbound i = true → s.initialised = true → s'.initialised = true →
    s.conn.role = s'.conn.role → s.conn.closeSent = s'.conn.closeSent → s.link.keys = s'.link.keys →
    s.link.draws = s'.link.draws →
      ∃ t t' out, exec i s = .next t ∧ exec i s' = .next t' ∧ t.status = t'.status ∧
        t.link.output = s.link.output ++ out ∧ t'.link.output = s'.link.output ++ out ∧
        t.conn = { s.conn with closeSent := t.conn.closeSent } ∧
        t'.conn = { s'.conn with closeSent := t.conn.closeSent }

/-! ### The whole machine -/

/-- The decoded instruction runs: an instruction standing first in the inbox is fetched and executed, and the bytes
after a frame stay in front (R2, R61, R250; the inbox is log entries 5 and 6). -/
def Obligations.StepRunsTheDecodedInstruction : Prop :=
  (∀ (s : State) (w : CmdWord) (q : List HostInput) (i : Instr), s.inbox = .command w :: q →
      decodeCommand w = .ok i → step s = exec i { s with inbox := q }) ∧
    ∀ (s : State) (bs rest : List Byte) (q : List HostInput) (i : Instr), s.inbox = .wire bs :: q →
      s.conn.decodeStep = .start → decodeFrame bs = .ok (i, rest) →
        step s = exec i { s with inbox := if rest = [] then q else .wire rest :: q }

/-- R70, R61, R253: bytes on RX that are no whole legal frame at START are received one at a time, and an empty run of
bytes is an empty chunk (log entries 6 and 11). -/
def Obligations.OtherBytesAreReceivedSingly : Prop :=
  (∀ (s : State) (b : Byte) (bs : List Byte) (q : List HostInput), s.inbox = .wire (b :: bs) :: q →
      (s.conn.decodeStep ≠ .start ∨ ∃ e, decodeFrame (b :: bs) = .error e) →
        step s = exec (.rxByte b) { s with inbox := if bs = [] then q else .wire bs :: q }) ∧
    ∀ (s : State) (q : List HostInput), s.inbox = .wire [] :: q → step s = exec (.rxChunk []) { s with inbox := q }

/-- R302, R74: with nothing in the inbox the codec is idle and keeps all its state (log entry 15). -/
def Obligations.IdleStepChangesNothing : Prop :=
  ∀ s : State, s.inbox = [] → step s = .next s

/-- R262, R250, U10: command code 7 is no command and the step refuses it by name (log entry 13); a word with any other
code, whatever its operands, is a command with that code, and the step runs it. -/
def Obligations.UnassignedCodeIsRefused : Prop :=
  ∀ (s : State) (w : CmdWord) (q : List HostInput), s.inbox = .command w :: q →
    (w.code = 7 → step s = .refused (.notACommand 7)) ∧
      (w.code ≠ 7 → ∃ i, decodeCommand w = .ok i ∧ i.commandCode = some w.code ∧
          step s = exec i { s with inbox := q })

/-- R36 to R40 at reset. -/
def Obligations.ResetMeetsInvariants : Prop := State.reset.Inv

/-- R36 to R40: every step keeps the invariants of the Connection, from every state that meets them. -/
def Obligations.StepKeepsInvariants : Prop :=
  ∀ s t : State, s.Inv → step s = .next t → t.Inv

/-- R36, R39, R40, R149: from a state that meets the invariants no step and no instruction ever faults. -/
def Obligations.NoFaultUnderInvariants : Prop :=
  ∀ (s : State) (e : Fault), s.Inv → step s ≠ .fault e ∧ ∀ i : Instr, exec i s ≠ .fault e

/-- R40, R21, R34: no instruction but INIT changes the configuration. -/
def Obligations.ConfigurationIsImmutable : Prop :=
  ∀ (s t : State) (i : Instr), isInit i = false → exec i s = .next t →
    t.conn.role = s.conn.role ∧ t.conn.maxPayloadEn = s.conn.maxPayloadEn ∧
      t.conn.maxPayloadBytes = s.conn.maxPayloadBytes ∧ t.conn.pongNotify = s.conn.pongNotify

/-- R32, R33, R40, R288: no instruction but INIT clears `closeSent` or changes an `errorCode` that is not 0. -/
def Obligations.StickyFlagsStay : Prop :=
  ∀ (s t : State) (i : Instr), isInit i = false → exec i s = .next t →
    (s.conn.closeSent = true → t.conn.closeSent = true) ∧
      (s.conn.errorCode ≠ 0 → t.conn.errorCode = s.conn.errorCode)

/-- R73, R74: no step takes back or reorders what was emitted before it. -/
def Obligations.OutputIsAppendOnly : Prop :=
  ∀ s t : State, step s = .next t → ∃ out, t.link.output = s.link.output ++ out

/-- R32, R191, R256: once `closeSent` is set, no instruction but INIT and TX_FRAME (R328) puts a close frame on TX. -/
def Obligations.NoSecondCloseFrame : Prop :=
  ∀ (s t : State) (i : Instr), isInit i = false → (∀ fin op p, i ≠ .txFrame fin op p) → s.conn.closeSent = true →
    exec i s = .next t → ∃ out, t.link.output = s.link.output ++ out ∧ ∀ o ∈ out, isCloseFrame o = false

/-- R226, R191, R258: for every instruction, as many keys leave the source as frames reach TX when the role is CLIENT,
first those that are ready and then free ones (log entry 4), and none when it is SERVER; what is refused, dropped or
not echoed draws none (D19). -/
def Obligations.DrawsMatchFramesSent : Prop :=
  ∀ (s t : State) (i : Instr), exec i s = .next t → ∃ out, t.link.output = s.link.output ++ out ∧
    (s.conn.role = .server → t.link.keys = s.link.keys ∧ t.link.draws = s.link.draws) ∧
      (s.conn.role = .client → t.link.keys = s.link.keys.drop (out.countP isTx) ∧
        t.link.draws = s.link.draws + (out.countP isTx - s.link.keys.length))
end

