-- ==== Sys2Proof/Laws/State.lean ====
section
/-!
SUPPORT. One small lemma per field per named update, true by unfolding, so that later proofs never unfold an update.
-/

namespace Sys2Proof.Machine

/-! ### emit -/

@[simp] theorem emit_conn (o : Output) (l : Link) : (emit o l).conn = l.conn := rfl
@[simp] theorem emit_keys (o : Output) (l : Link) : (emit o l).keys = l.keys := rfl
@[simp] theorem emit_draws (o : Output) (l : Link) : (emit o l).draws = l.draws := rfl
@[simp] theorem emit_output (o : Output) (l : Link) : (emit o l).output = l.output ++ [o] := rfl

/-! ### setStep -/

@[simp] theorem setStep_conn (d : DecodeStep) (l : Link) :
    (setStep d l).conn = { l.conn with decodeStep := d } := rfl
@[simp] theorem setStep_keys (d : DecodeStep) (l : Link) : (setStep d l).keys = l.keys := rfl
@[simp] theorem setStep_draws (d : DecodeStep) (l : Link) : (setStep d l).draws = l.draws := rfl
@[simp] theorem setStep_output (d : DecodeStep) (l : Link) : (setStep d l).output = l.output := rfl

/-! ### raiseViolation -/

@[simp] theorem raiseViolation_conn (v : Violation) (l : Link) :
    (raiseViolation v l).conn = { l.conn with errorCode := violationCode v } := rfl
@[simp] theorem raiseViolation_keys (v : Violation) (l : Link) : (raiseViolation v l).keys = l.keys := rfl
@[simp] theorem raiseViolation_draws (v : Violation) (l : Link) : (raiseViolation v l).draws = l.draws := rfl
@[simp] theorem raiseViolation_output (v : Violation) (l : Link) :
    (raiseViolation v l).output = l.output ++ [.evError (violationCode v)] := rfl

/-- Raising a violation is what `Link.halting` says. -/
theorem raiseViolation_eq_halting (v : Violation) (l : Link) : raiseViolation v l = l.halting (violationCode v) := rfl

/-! ### drawKey, drawFor and sendFrame -/

@[simp] theorem drawKey_conn (l : Link) : (drawKey l).2.conn = l.conn := by
  unfold drawKey; split <;> rfl

@[simp] theorem drawKey_output (l : Link) : (drawKey l).2.output = l.output := by
  unfold drawKey; split <;> rfl

@[simp] theorem drawFor_conn (l : Link) : (drawFor l).2.conn = l.conn := by
  unfold drawFor; split <;> simp

@[simp] theorem drawFor_output (l : Link) : (drawFor l).2.output = l.output := by
  unfold drawFor; split <;> simp

@[simp] theorem sendFrame_conn (fin : Bool) (op : BitVec 4) (p : List Byte) (l : Link) :
    (sendFrame fin op p l).conn = l.conn := by simp [sendFrame]

@[simp] theorem sendFrame_output (fin : Bool) (op : BitVec 4) (p : List Byte) (l : Link) :
    (sendFrame fin op p l).output = l.output ++ [.tx (encodeTx l.conn.role fin op (drawFor l).1 p)] := by
  simp [sendFrame]

/-- The key a link draws depends on its role, its ready keys and its draw count alone. -/
theorem drawFor_fst_congr (l l' : Link) (hr : l.conn.role = l'.conn.role) (hk : l.keys = l'.keys)
    (hd : l.draws = l'.draws) : (drawFor l).1 = (drawFor l').1 := by
  unfold drawFor drawKey
  rw [hr, hk, hd]
  cases l'.conn.role <;> cases l'.keys <;> rfl

/-! ### storeCtrl and countByte -/

@[simp] theorem storeCtrl_ctrlBuf (u : Byte) (c : Conn) :
    (storeCtrl u c).ctrlBuf = c.ctrlBuf.setIfInBounds c.ctrlLen.toNat u := rfl
@[simp] theorem storeCtrl_ctrlLen (u : Byte) (c : Conn) : (storeCtrl u c).ctrlLen = c.ctrlLen + 1 := rfl
@[simp] theorem storeCtrl_errorCode (u : Byte) (c : Conn) : (storeCtrl u c).errorCode = c.errorCode := rfl
@[simp] theorem storeCtrl_decodeStep (u : Byte) (c : Conn) : (storeCtrl u c).decodeStep = c.decodeStep := rfl
@[simp] theorem storeCtrl_hdrByte0 (u : Byte) (c : Conn) : (storeCtrl u c).hdrByte0 = c.hdrByte0 := rfl
@[simp] theorem storeCtrl_remaining (u : Byte) (c : Conn) :
    (storeCtrl u c).payloadBytesRemaining = c.payloadBytesRemaining := rfl

@[simp] theorem countByte_errorCode (c : Conn) : (countByte c).errorCode = c.errorCode := rfl
@[simp] theorem countByte_decodeStep (c : Conn) : (countByte c).decodeStep = c.decodeStep := rfl
@[simp] theorem countByte_hdrByte0 (c : Conn) : (countByte c).hdrByte0 = c.hdrByte0 := rfl
@[simp] theorem countByte_remaining (c : Conn) :
    (countByte c).payloadBytesRemaining = c.payloadBytesRemaining - 1 := rfl

/-! ### State.received and the instruction wrappers -/

@[simp] theorem received_link (s : State) (l : Link) : (s.received l).link = l := rfl
@[simp] theorem received_initialised (s : State) (l : Link) : (s.received l).initialised = s.initialised := rfl
@[simp] theorem received_inbox (s : State) (l : Link) : (s.received l).inbox = s.inbox := rfl
@[simp] theorem received_status (s : State) (l : Link) : (s.received l).status = rxStatus l.conn := rfl
@[simp] theorem received_reply (s : State) (l : Link) : (s.received l).reply = none := rfl
@[simp] theorem received_freeReads (s : State) (l : Link) : (s.received l).freeReads = s.freeReads := rfl

/-- The reset Connection is what INIT with SERVER, no maximum and no pong events leaves over a zero buffer (R42). -/
theorem reset_conn : State.reset.conn = initConn .server none false (Vector.replicate 125 0) := rfl

end Sys2Proof.Machine
end

