-- ==== Sys2Proof/Laws/Codec.lean ====
section
/-!
SUPPORT. The frame format: header bytes and their fields, length forms, the mask.
-/

namespace Sys2Proof

/-! ### Header bytes -/

@[simp] theorem finOf_byte0 (fin : Bool) (rsv : BitVec 3) (op : BitVec 4) : finOf (byte0 fin rsv op) = fin := by
  revert fin rsv op; decide

@[simp] theorem rsvOf_byte0 (fin : Bool) (rsv : BitVec 3) (op : BitVec 4) : rsvOf (byte0 fin rsv op) = rsv := by
  revert fin rsv op; decide

@[simp] theorem opcodeOf_byte0 (fin : Bool) (rsv : BitVec 3) (op : BitVec 4) : opcodeOf (byte0 fin rsv op) = op := by
  revert fin rsv op; decide

theorem byte0_fields (b : Byte) : byte0 (finOf b) (rsvOf b) (opcodeOf b) = b := by
  revert b; decide

@[simp] theorem maskOf_byte1 (m : Bool) (n : BitVec 7) : maskOf (byte1 m n) = m := by
  revert m n; decide

@[simp] theorem len7Of_byte1 (m : Bool) (n : BitVec 7) : len7Of (byte1 m n) = n := by
  revert m n; decide

theorem byte1_fields (b : Byte) : byte1 (maskOf b) (len7Of b) = b := by
  revert b; decide

/-- Every opcode is in exactly one class (R11). -/
theorem opcode_classes (op : BitVec 4) :
    (isData op = true ∧ isControl op = false ∧ isReserved op = false) ∨
      (isData op = false ∧ isControl op = true ∧ isReserved op = false) ∨
      (isData op = false ∧ isControl op = false ∧ isReserved op = true) := by
  revert op; decide

/-! ### Length -/

theorem shiftIn_toNat (x : BitVec 64) (b : Byte) : (shiftIn x b).toNat = x.toNat % 2 ^ 56 * 256 + b.toNat := by
  have hb := b.isLt
  simp only [shiftIn, BitVec.toNat_append, BitVec.extractLsb'_toNat, Nat.shiftRight_zero]
  rw [← Nat.shiftLeft_add_eq_or_of_lt hb, Nat.shiftLeft_eq]

theorem lengthByte_toNat (L i : Nat) : (lengthByte L i).toNat = L / 2 ^ (8 * i) % 256 := by
  simp [lengthByte, Nat.shiftRight_eq_div_pow]

/-- Shifting in the next lower byte of a length gives the length down to that byte (R26, R67). -/
theorem shiftIn_lengthByte (L i : Nat) :
    shiftIn (BitVec.ofNat 64 (L / 2 ^ (8 * (i + 1)))) (lengthByte L i) = BitVec.ofNat 64 (L / 2 ^ (8 * i)) := by
  apply BitVec.eq_of_toNat_eq
  rw [shiftIn_toNat, lengthByte_toNat, BitVec.toNat_ofNat, BitVec.toNat_ofNat]
  have h : L / 2 ^ (8 * (i + 1)) = L / 2 ^ (8 * i) / 256 := by
    rw [Nat.div_div_eq_div_mul, Nat.mul_add, Nat.pow_add]
  rw [h]
  generalize L / 2 ^ (8 * i) = q
  omega

/-- The two bytes of the short form spell the length (R98). -/
theorem shiftIn_two (L : Nat) (h : L ≤ 65535) :
    shiftIn (shiftIn 0 (lengthByte L 1)) (lengthByte L 0) = BitVec.ofNat 64 L := by
  have h0 : (0 : BitVec 64) = BitVec.ofNat 64 (L / 2 ^ (8 * (1 + 1))) := by
    rw [show L / 2 ^ (8 * (1 + 1)) = 0 by omega]; rfl
  rw [h0, shiftIn_lengthByte, shiftIn_lengthByte L 0]
  simp

/-- The eight bytes of the long form spell the length (R98). -/
theorem shiftIn_eight (L : Nat) (h : L < 2 ^ 64) :
    shiftIn (shiftIn (shiftIn (shiftIn (shiftIn (shiftIn (shiftIn (shiftIn 0 (lengthByte L 7)) (lengthByte L 6))
      (lengthByte L 5)) (lengthByte L 4)) (lengthByte L 3)) (lengthByte L 2)) (lengthByte L 1)) (lengthByte L 0) =
      BitVec.ofNat 64 L := by
  have h0 : (0 : BitVec 64) = BitVec.ofNat 64 (L / 2 ^ (8 * (7 + 1))) := by
    rw [show L / 2 ^ (8 * (7 + 1)) = 0 from Nat.div_eq_of_lt h]; rfl
  rw [h0, shiftIn_lengthByte, shiftIn_lengthByte, shiftIn_lengthByte, shiftIn_lengthByte, shiftIn_lengthByte,
    shiftIn_lengthByte, shiftIn_lengthByte, shiftIn_lengthByte L 0]
  simp

theorem lengthOf_two (L : Nat) (h : L ≤ 65535) : lengthOf [lengthByte L 1, lengthByte L 0] = BitVec.ofNat 64 L :=
  shiftIn_two L h

theorem lengthOf_eight (L : Nat) (h : L < 2 ^ 64) :
    lengthOf [lengthByte L 7, lengthByte L 6, lengthByte L 5, lengthByte L 4, lengthByte L 3, lengthByte L 2,
      lengthByte L 1, lengthByte L 0] = BitVec.ofNat 64 L := shiftIn_eight L h

theorem longLength_of_lt {L : Nat} (h : L < 2 ^ 64) : longLength L = L := if_pos h

/-- The three length forms (R222). -/
theorem lenField_short {m : Bool} {L : Nat} (h : L ≤ 125) : lenField m L = [byte1 m (BitVec.ofNat 7 L)] := by
  simp [lenField, h]

theorem lenField_middle {m : Bool} {L : Nat} (h : 125 < L) (h' : L ≤ 65535) :
    lenField m L = [byte1 m 126, lengthByte L 1, lengthByte L 0] := by
  simp [lenField, Nat.not_le.mpr h, h']

theorem lenField_long {m : Bool} {L : Nat} (h : 65535 < L) (h' : L < 2 ^ 64) :
    lenField m L =
      [byte1 m 127, lengthByte L 7, lengthByte L 6, lengthByte L 5, lengthByte L 4, lengthByte L 3, lengthByte L 2,
        lengthByte L 1, lengthByte L 0] := by
  simp [lenField, longLength_of_lt h', show ¬L ≤ 125 by omega, show ¬L ≤ 65535 by omega]

/-- Byte 1 and 0, 2 or 8 more bytes, for every length (R94, R227). -/
theorem lenField_length (m : Bool) (L : Nat) :
    (lenField m L).length = if L ≤ 125 then 1 else if L ≤ 65535 then 3 else 9 := by
  unfold lenField; split
  · rfl
  · split <;> rfl

/-! ### Mask -/

@[simp] theorem maskFrom_length (k : Key) (i : BitVec 2) (p : List Byte) : (maskFrom k i p).length = p.length := by
  induction p generalizing i with
  | nil => rfl
  | cons b bs ih => simp [maskFrom, ih]

@[simp] theorem mask_length (k : Key) (p : List Byte) : (mask k p).length = p.length := maskFrom_length k 0 p

theorem maskFrom_append (k : Key) (i : BitVec 2) (p q : List Byte) :
    maskFrom k i (p ++ q) = maskFrom k i p ++ maskFrom k (i + BitVec.ofNat 2 p.length) q := by
  induction p generalizing i with
  | nil => simp [maskFrom]
  | cons b bs ih =>
    have h : i + 1 + BitVec.ofNat 2 bs.length = i + BitVec.ofNat 2 (bs.length + 1) := by
      rw [BitVec.add_assoc, BitVec.ofNat_add, BitVec.add_comm (1 : BitVec 2)]; rfl
    simp only [List.cons_append, maskFrom, ih, List.length_cons, h]

/-- Masking twice from one key index gives the bytes back (R225). -/
theorem maskFrom_maskFrom (k : Key) (i : BitVec 2) (p : List Byte) : maskFrom k i (maskFrom k i p) = p := by
  induction p generalizing i with
  | nil => rfl
  | cons b bs ih => simp [maskFrom, ih]

end Sys2Proof
end

