-- ==== Sys2Proof/Laws/Decode.lean ====
section
/-!
SUPPORT. What each part of the frame decoder reads, in both directions: the length field, the key and the payload.
-/

namespace Sys2Proof

/-! ### From the encoder -/

theorem decodeKey_wireBody (key : Option Key) (p rest : List Byte) :
    decodeKey key.isSome (wireBody key p ++ rest) =
      .ok (key, (match key with | none => p | some k => mask k p) ++ rest) := by
  cases key with
  | none => rfl
  | some k =>
    obtain ⟨⟨ks⟩, hk⟩ := k
    match ks, hk with
    | [a, b, c, d], _ => simp [decodeKey, wireBody]

/-- Key and payload come back, and what follows is left (R99, R104, R105). -/
theorem decodeBody_wireBody (fin : Bool) (rsv : BitVec 3) (key : Option Key) (p rest : List Byte) :
    decodeBody fin rsv key.isSome p.length (wireBody key p ++ rest) = .ok (⟨fin, rsv, key, p⟩, rest) := by
  simp only [decodeBody, decodeKey_wireBody]
  cases key with
  | none => simp [unmask]
  | some k => simp [unmask, mask, maskFrom_maskFrom]

theorem ofNat_len7_ne {L : Nat} (h : L ≤ 125) : BitVec.ofNat 7 L ≠ 126 ∧ BitVec.ofNat 7 L ≠ 127 := by
  constructor <;> (intro e; have := congrArg BitVec.toNat e; simp at this; omega)

/-- The length comes back from its field (R98, R100, R222). -/
theorem decodeLength_lenField (m : Bool) (L : Nat) (hL : L < 2 ^ 64) (rest : List Byte) :
    ∃ n ext, lenField m L = byte1 m n :: ext ∧ decodeLength n (ext ++ rest) = .ok (L, rest) ∧
      (L ≤ 125 → n.toNat ≤ 125) := by
  rcases Nat.lt_or_ge 125 L with h1 | h1
  · rcases Nat.lt_or_ge 65535 L with h2 | h2
    · refine ⟨_, _, lenField_long h2 hL, ?_, by omega⟩
      simp only [decodeLength, List.cons_append, List.nil_append]
      rw [lengthOf_eight L hL]
      simp only [BitVec.toNat_ofNat, Nat.mod_eq_of_lt hL]
      rw [if_neg (by decide), if_pos trivial, if_neg (by omega)]
    · refine ⟨_, _, lenField_middle h1 h2, ?_, by omega⟩
      simp only [decodeLength, List.cons_append, List.nil_append]
      rw [lengthOf_two L h2]
      simp only [BitVec.toNat_ofNat, Nat.mod_eq_of_lt hL]
      rw [if_pos trivial, if_neg (by omega)]
  · refine ⟨_, _, lenField_short h1, ?_, fun _ => by simp; omega⟩
    obtain ⟨h6, h7⟩ := ofNat_len7_ne h1
    simp only [decodeLength, if_neg h6, if_neg h7, List.nil_append]
    rw [BitVec.toNat_ofNat, Nat.mod_eq_of_lt (by omega)]

/-! ### To the encoder -/

theorem len7_le {n : BitVec 7} (h6 : n ≠ 126) (h7 : n ≠ 127) : n.toNat ≤ 125 := by
  have := n.isLt
  have : n.toNat ≠ 126 := fun h => h6 (BitVec.eq_of_toNat_eq h)
  have : n.toNat ≠ 127 := fun h => h7 (BitVec.eq_of_toNat_eq h)
  omega

theorem lengthOf_two_toNat (a b : Byte) : (lengthOf [a, b]).toNat = a.toNat * 256 + b.toNat := by
  simp only [lengthOf, List.foldl, shiftIn_toNat]; have := a.isLt; simp; omega

theorem lengthOf_eight_toNat (a b c d e f g h : Byte) :
    (lengthOf [a, b, c, d, e, f, g, h]).toNat =
      a.toNat * 2 ^ 56 + b.toNat * 2 ^ 48 + c.toNat * 2 ^ 40 + d.toNat * 2 ^ 32 + e.toNat * 2 ^ 24 +
        f.toNat * 2 ^ 16 + g.toNat * 256 + h.toNat := by
  have := a.isLt; have := b.isLt; have := c.isLt; have := d.isLt
  have := e.isLt; have := f.isLt; have := g.isLt; have := h.isLt
  simp only [lengthOf, List.foldl, shiftIn_toNat]; simp; omega

/-- A length that is accepted was written by `lenField` (R100). -/
theorem decodeLength_inv (m : Bool) (n : BitVec 7) (bs : List Byte) (L : Nat) (rest : List Byte)
    (h : decodeLength n bs = .ok (L, rest)) :
    byte1 m n :: bs = lenField m L ++ rest ∧ L < 2 ^ 64 ∧ (n.toNat < 126 → L ≤ 125) := by
  unfold decodeLength at h
  split at h
  · rename_i h6
    split at h
    · rename_i a b rest'
      simp only [] at h
      split at h
      · cases h
      · rename_i hge
        cases h
        have hv := lengthOf_two_toNat a b
        have := a.isLt; have := b.isLt
        generalize (lengthOf [a, b]).toNat = L at *
        rw [lenField_middle (by omega) (by omega)]
        refine ⟨?_, by omega, fun h => by rw [h6] at h; exact absurd h (by decide)⟩
        have e1 : lengthByte L 1 = a := by apply BitVec.eq_of_toNat_eq; rw [lengthByte_toNat]; omega
        have e0 : lengthByte L 0 = b := by apply BitVec.eq_of_toNat_eq; rw [lengthByte_toNat]; omega
        rw [e1, e0, h6]; rfl
    · cases h
  · rename_i h6
    split at h
    · rename_i h7
      split at h
      · rename_i a b c d e f g k rest'
        simp only [] at h
        split at h
        · cases h
        · rename_i hge
          cases h
          have := a.isLt; have := b.isLt; have := c.isLt; have := d.isLt
          have := e.isLt; have := f.isLt; have := g.isLt; have := k.isLt
          have hv := lengthOf_eight_toNat a b c d e f g k
          generalize (lengthOf [a, b, c, d, e, f, g, k]).toNat = L at *
          rw [lenField_long (by omega) (by omega)]
          refine ⟨?_, by omega, fun h => by rw [h7] at h; exact absurd h (by decide)⟩
          have e7 : lengthByte L 7 = a := by apply BitVec.eq_of_toNat_eq; rw [lengthByte_toNat]; omega
          have e6 : lengthByte L 6 = b := by apply BitVec.eq_of_toNat_eq; rw [lengthByte_toNat]; omega
          have e5 : lengthByte L 5 = c := by apply BitVec.eq_of_toNat_eq; rw [lengthByte_toNat]; omega
          have e4 : lengthByte L 4 = d := by apply BitVec.eq_of_toNat_eq; rw [lengthByte_toNat]; omega
          have e3 : lengthByte L 3 = e := by apply BitVec.eq_of_toNat_eq; rw [lengthByte_toNat]; omega
          have e2 : lengthByte L 2 = f := by apply BitVec.eq_of_toNat_eq; rw [lengthByte_toNat]; omega
          have e1 : lengthByte L 1 = g := by apply BitVec.eq_of_toNat_eq; rw [lengthByte_toNat]; omega
          have e0 : lengthByte L 0 = k := by apply BitVec.eq_of_toNat_eq; rw [lengthByte_toNat]; omega
          rw [e0, e1, e2, e3, e4, e5, e6, e7, h7]; rfl
      · cases h
    · rename_i h7
      cases h
      have := len7_le h6 h7
      rw [lenField_short this]
      exact ⟨by simp, by omega, fun _ => this⟩

/-- A body that is accepted was written by `wireBody` (R99, R105). -/
theorem decodeBody_inv {fin m : Bool} {rsv : BitVec 3} {L : Nat} {bs rest : List Byte} {f : Frame}
    (h : decodeBody fin rsv m L bs = .ok (f, rest)) :
    f.fin = fin ∧ f.rsv = rsv ∧ f.key.isSome = m ∧ f.payload.length = L ∧ bs = wireBody f.key f.payload ++ rest := by
  unfold decodeBody at h
  split at h
  · cases h
  · rename_i key r hk
    split at h
    · cases h
    · rename_i hlen
      cases h
      unfold decodeKey at hk
      split at hk
      · rename_i hm
        split at hk
        · cases hk
          refine ⟨rfl, rfl, by simp [hm], by simp [unmask]; omega, ?_⟩
          simp [unmask, wireBody, mask, maskFrom_maskFrom, List.take_append_drop]
        · cases hk
      · rename_i hm
        cases hk
        refine ⟨rfl, rfl, by simpa using hm, by simp [unmask]; omega, ?_⟩
        simp [unmask, wireBody, List.take_append_drop]

end Sys2Proof
end

