-- ==== Sys2Proof/Laws/Decoder.lean ====
section
/-!
SUPPORT. What the decoder's shared operations do, said once: a received byte, a byte sequence, the header of an
accepted frame, and its payload.
-/

namespace Sys2Proof.Machine

/-! ### Bytes -/

theorem halted_eq_false {c : Conn} (h : c.errorCode = 0) : halted c = false := by simpa [halted] using h

theorem halted_eq_true {c : Conn} (h : c.errorCode ≠ 0) : halted c = true := by simpa [halted] using h

/-- All that one byte can do (R252): dropped, its step rule, or no rule. -/
theorem rxByte_cases (b : Byte) (l : Link) :
    (l.conn.errorCode ≠ 0 ∧ rxByte b l = .next l) ∨
      (l.conn.errorCode = 0 ∧ ruleApplies l.conn = true ∧ rxByte b l = .next (stepRule b l)) ∨
      (l.conn.errorCode = 0 ∧ ruleApplies l.conn = false ∧ rxByte b l = .fault (.noStepRule l.conn.decodeStep)) := by
  by_cases h : l.conn.errorCode = 0
  · cases hr : ruleApplies l.conn
    · exact .inr (.inr ⟨h, rfl, by simp [rxByte, halted_eq_false h, hr]⟩)
    · exact .inr (.inl ⟨h, rfl, by simp [rxByte, halted_eq_false h, hr]⟩)
  · exact .inl ⟨h, by simp [rxByte, halted_eq_true h]⟩

theorem rxByte_rule {b : Byte} {l : Link} (h : l.conn.errorCode = 0) (hr : ruleApplies l.conn = true) :
    rxByte b l = .next (stepRule b l) := by simp [rxByte, halted_eq_false h, hr]

@[simp] theorem rxBytes_nil (l : Link) : rxBytes [] l = .next l := rfl

theorem rxBytes_cons {b : Byte} {bs : List Byte} {l l' : Link} (h : rxByte b l = .next l') :
    rxBytes (b :: bs) l = rxBytes bs l' := by simp [rxBytes, h]

theorem rxBytes_cons_rule {b : Byte} {bs : List Byte} {l : Link} (h : l.conn.errorCode = 0)
    (hr : ruleApplies l.conn = true) : rxBytes (b :: bs) l = rxBytes bs (stepRule b l) :=
  rxBytes_cons (rxByte_rule h hr)

@[simp] theorem rxBytes_singleton (b : Byte) (l : Link) : rxBytes [b] l = rxByte b l := by
  simp only [rxBytes]; split <;> simp_all

/-- A halted decoder drops every byte (R286). -/
theorem rxBytes_halted {l : Link} (h : l.conn.errorCode ≠ 0) (bs : List Byte) : rxBytes bs l = .next l := by
  induction bs with
  | nil => rfl
  | cons b bs ih => rw [rxBytes_cons (l' := l) (by simp [rxByte, halted_eq_true h]), ih]

/-- A sequence in two parts (R148). -/
theorem rxBytes_append (x y : List Byte) (l : Link) :
    rxBytes (x ++ y) l =
      match rxBytes x l with
      | .next l' => rxBytes y l'
      | .fault e => .fault e
      | .refused e => .refused e := by
  induction x generalizing l with
  | nil => rfl
  | cons b bs ih =>
    simp only [List.cons_append, rxBytes]
    cases rxByte b l <;> simp [ih]

theorem rxBytes_append_next {x y : List Byte} {l l' : Link} (h : rxBytes x l = .next l') :
    rxBytes (x ++ y) l = rxBytes y l' := by rw [rxBytes_append, h]

/-- No byte is refused: the decoder has a rule for it, drops it, or stands where no rule applies. -/
theorem rxBytes_not_refused (bs : List Byte) (l : Link) (e : Refusal) : rxBytes bs l ≠ .refused e := by
  induction bs generalizing l with
  | nil => simp
  | cons b bs ih =>
    rcases rxByte_cases b l with ⟨-, h⟩ | ⟨-, -, h⟩ | ⟨-, -, h⟩
    · rw [rxBytes_cons h]; exact ih l
    · rw [rxBytes_cons h]; exact ih _
    · simp [rxBytes, h]

/-! ### `receive` -/

theorem receive_next {bs : List Byte} {s : State} {l : Link} (hi : s.initialised = true)
    (h : rxBytes bs s.link = .next l) : receive bs s = .next (s.received l) := by
  simp [receive, hi, h, State.received]

/-- All that a receiving instruction can do when it answers a next state. -/
theorem receive_cases {bs : List Byte} {s t : State} (h : receive bs s = .next t) :
    s.initialised = true ∧ ∃ l, rxBytes bs s.link = .next l ∧ t = s.received l := by
  unfold receive at h
  split at h
  · rename_i hi
    split at h
    · rename_i l hl
      exact ⟨hi, l, hl, by simpa [State.received] using h.symm⟩
    · cases h
    · cases h
  · cases h

theorem receive_beforeInit {bs : List Byte} {s : State} (h : s.initialised = false) :
    receive bs s = .refused .beforeInit := by simp [receive, h]

/-! ### END -/

/-- END does not depend on the step it is entered from. -/
theorem frameEnd_setStep (d : DecodeStep) (l : Link) : frameEnd (setStep d l) = frameEnd l := rfl

theorem isData_not_close {op : BitVec 4} (h : isData op = true) : (op == 0x8) = false := by
  revert op; decide

/-- The action of END writes nothing of the Connection but `closeSent`, and that only for a close (R146, R32). -/
theorem endAction_conn (l : Link) :
    (endAction l).conn =
      { l.conn with closeSent := l.conn.closeSent || opcodeOf l.conn.hdrByte0 == 0x8 } := by
  unfold endAction
  by_cases hd : isData (opcodeOf l.conn.hdrByte0) = true
  · rw [if_pos hd, isData_not_close hd]; simp [onData]
  rw [if_neg hd]
  by_cases h8 : opcodeOf l.conn.hdrByte0 = 0x8
  · rw [if_pos h8, beq_iff_eq.mpr h8]
    cases hc : l.conn.closeSent <;> simp [onClose, hc]
    rw [← hc]
  have h8' : (opcodeOf l.conn.hdrByte0 == 0x8) = false := beq_eq_false_iff_ne.mpr h8
  rw [if_neg h8, h8', Bool.or_false]
  split
  · simp [onPing]
  · split
    · simp only [onPong]; split <;> simp
    · rfl

/-- What END leaves of the Connection: only `decodeStep` and, for a close, `closeSent` are written (R146, R147). -/
theorem frameEnd_conn (l : Link) :
    (frameEnd l).conn =
      { l.conn with
        decodeStep := .start
        closeSent := l.conn.closeSent || opcodeOf l.conn.hdrByte0 == 0x8 } := by
  simp only [frameEnd, setStep_conn, endAction_conn]

/-! ### Header -/

/-- `START` on the byte of a defined opcode (R131). -/
theorem startRule_defined (fin : Bool) (rsv : BitVec 3) (op : BitVec 4) (l : Link) (h : isReserved op = false) :
    startRule (byte0 fin rsv op) l =
      { l with
        conn :=
          { l.conn with
            hdrByte0 := byte0 fin rsv op
            lastOpcode := nextLastOpcode op l.conn.lastOpcode
            decodeStep := .length } } := by simp [startRule, h]

/-- `EnterData` and `HeaderLengthDone` do not depend on the step they are entered from. -/
theorem headerLengthDone_step (d : DecodeStep) (l : Link) : headerLengthDone (setStep d l) = headerLengthDone l := rfl

/-- The length registers after the length field of a frame of length `L` (R133 to R141). -/
def lengthDecoded (m : Bool) (L : Nat) (c : Conn) : Conn :=
  { c with
    hdrByte1 := byte1 m (if L ≤ 125 then BitVec.ofNat 7 L else if L ≤ 65535 then 126 else 127)
    hdrExtLen := if L ≤ 125 then 0 else BitVec.ofNat 64 L
    fieldIdx := if L ≤ 125 then 0 else if L ≤ 65535 then 1 else 7
    payloadBytesRemaining := BitVec.ofNat 64 L }

end Sys2Proof.Machine
end

