-- ==== Sys2Proof/Laws/Header.lean ====
section
/-!
SUPPORT. The header of an accepted frame, byte by byte: the length field (R133 to R142) and the key (R143).
-/

namespace Sys2Proof.Machine

theorem stepRule_start {b : Byte} {l : Link} (hs : l.conn.decodeStep = .start) : stepRule b l = startRule b l := by
  simp only [stepRule, hs]

theorem stepRule_length {b : Byte} {l : Link} (hs : l.conn.decodeStep = .length) : stepRule b l = lengthRule b l := by
  simp only [stepRule, hs]

theorem stepRule_shortLength {b : Byte} {l : Link} (hs : l.conn.decodeStep = .shortLength) :
    stepRule b l = shortLengthRule b l := by simp only [stepRule, hs]

theorem stepRule_extendedLength {b : Byte} {l : Link} (hs : l.conn.decodeStep = .extendedLength) :
    stepRule b l = extendedLengthRule b l := by simp only [stepRule, hs]

theorem stepRule_key {b : Byte} {l : Link} (hs : l.conn.decodeStep = .key) : stepRule b l = keyRule b l := by
  simp only [stepRule, hs]

theorem stepRule_data {b : Byte} {l : Link} (hs : l.conn.decodeStep = .data) : stepRule b l = dataRule b l := by
  simp only [stepRule, hs]

/-! ### Length field -/

theorem rxBytes_more {b : Byte} {bs : List Byte} {l : Link} (h : l.conn.errorCode = 0)
    (hs : l.conn.decodeStep = .shortLength ∧ l.conn.fieldIdx = 0 ∨
      l.conn.decodeStep = .extendedLength ∧ l.conn.fieldIdx ≠ 7) :
    rxBytes (b :: bs) l = rxBytes bs (moreLengthByte b l) := by
  rcases hs with ⟨hs, hi⟩ | ⟨hs, hi⟩
  · rw [rxBytes_cons_rule h (by simp [ruleApplies, hs])]
    rw [stepRule_shortLength hs, shortLengthRule, if_pos hi]
  · rw [rxBytes_cons_rule h (by simp [ruleApplies, hs])]
    rw [stepRule_extendedLength hs, extendedLengthRule, if_neg hi]

/-- Several bytes of the long form, none of them the last (R140). -/
theorem rxBytes_more_extended (bs rest : List Byte) (l : Link) (h : l.conn.errorCode = 0)
    (hs : l.conn.decodeStep = .extendedLength) (hi : l.conn.fieldIdx.toNat + bs.length ≤ 7) :
    rxBytes (bs ++ rest) l =
      rxBytes rest
        { l with
          conn :=
            { l.conn with
              hdrExtLen := bs.foldl shiftIn l.conn.hdrExtLen
              fieldIdx := l.conn.fieldIdx + BitVec.ofNat 3 bs.length } } := by
  induction bs generalizing l with
  | nil => simp
  | cons b bs ih =>
    have hlt : l.conn.fieldIdx.toNat + (bs.length + 1) ≤ 7 := hi
    have hne : l.conn.fieldIdx ≠ 7 := fun h7 => by rw [h7] at hlt; simp at hlt
    have hidx : l.conn.fieldIdx + 1 + BitVec.ofNat 3 bs.length = l.conn.fieldIdx + BitVec.ofNat 3 (bs.length + 1) := by
      rw [BitVec.add_assoc, BitVec.ofNat_add, BitVec.add_comm (1 : BitVec 3)]; rfl
    have hnext : (l.conn.fieldIdx + 1).toNat + bs.length ≤ 7 := by
      rw [BitVec.toNat_add]; simp; omega
    rw [List.cons_append, rxBytes_more h (.inr ⟨hs, hne⟩), ih (moreLengthByte b l) h hs hnext, List.length_cons, ← hidx]
    rfl

theorem rxBytes_last_short {b : Byte} {l : Link} (h : l.conn.errorCode = 0) (hs : l.conn.decodeStep = .shortLength)
    (hi : l.conn.fieldIdx ≠ 0) : rxBytes [b] l = .next (lastLengthByte 126 b l) := by
  rw [rxBytes_singleton, rxByte_rule h (by simp [ruleApplies, hs])]
  rw [stepRule_shortLength hs, shortLengthRule, if_neg hi]

theorem rxBytes_last_extended {b : Byte} {l : Link} (h : l.conn.errorCode = 0)
    (hs : l.conn.decodeStep = .extendedLength) (hi : l.conn.fieldIdx = 7) :
    rxBytes [b] l = .next (lastLengthByte 65536 b l) := by
  rw [rxBytes_singleton, rxByte_rule h (by simp [ruleApplies, hs])]
  rw [stepRule_extendedLength hs, extendedLengthRule, if_pos hi]

theorem lastLengthByte_accepted {least : Nat} {b : Byte} {l : Link} {v : BitVec 64}
    (hv : shiftIn l.conn.hdrExtLen b = v) (hl : least ≤ v.toNat) (he : exceeds l.conn v = false) :
    lastLengthByte least b l =
      headerLengthDone { l with conn := { l.conn with hdrExtLen := v, payloadBytesRemaining := v } } := by
  simp [lastLengthByte, extLenViolation, hv, Nat.not_lt.mpr hl, he]

/-- A byte 1 that passes the checks of R134 and R135. -/
theorem lengthViolation_none {m : Bool} {n : BitVec 7} {c : Conn} (hm : m = expectedMask c.role)
    (hc : isControl (opcodeOf c.hdrByte0) = true → n.toNat ≤ 125)
    (he : n.toNat ≤ 125 → exceeds c (n.zeroExtend 64) = false) : lengthViolation (byte1 m n) c = none := by
  unfold lengthViolation
  rw [maskOf_byte1, len7Of_byte1, if_neg (by simp [hm])]
  by_cases hn : n.toNat ≤ 125
  · rw [if_neg (by simp; omega), if_neg]
    simp [he hn]
  · have hc' : isControl (opcodeOf c.hdrByte0) = false := by
      cases h : isControl (opcodeOf c.hdrByte0)
      · rfl
      · exact absurd (hc h) hn
    simp [hc', hn]

theorem lengthRule_126 {b : Byte} {l : Link} (hv : lengthViolation b l.conn = none) (hn : len7Of b = 126) :
    lengthRule b l =
      { l with
        conn := { l.conn with hdrByte1 := b, hdrExtLen := 0, fieldIdx := 0, decodeStep := .shortLength } } := by
  simp only [lengthRule, hv, hn, if_true]

theorem lengthRule_127 {b : Byte} {l : Link} (hv : lengthViolation b l.conn = none) (hn : len7Of b = 127) :
    lengthRule b l =
      { l with
        conn := { l.conn with hdrByte1 := b, hdrExtLen := 0, fieldIdx := 0, decodeStep := .extendedLength } } := by
  simp only [lengthRule, hv, hn, if_true, if_neg (show ¬(127 : BitVec 7) = 126 by decide)]

theorem lengthRule_125 {b : Byte} {l : Link} (hv : lengthViolation b l.conn = none) (hn : (len7Of b).toNat ≤ 125) :
    lengthRule b l =
      headerLengthDone
        { l with
          conn :=
            { l.conn with
              hdrByte1 := b
              hdrExtLen := 0
              fieldIdx := 0
              payloadBytesRemaining := (len7Of b).zeroExtend 64 } } := by
  have h6 : ¬len7Of b = 126 := fun h => by rw [h] at hn; exact absurd hn (by decide)
  have h7 : ¬len7Of b = 127 := fun h => by rw [h] at hn; exact absurd hn (by decide)
  simp only [lengthRule, hv, if_neg h6, if_neg h7]

/-- The length field of an accepted frame: `payloadBytesRemaining` holds its length and the header goes on (R133 to
R142, R229). -/
theorem rxBytes_lenField {m : Bool} {L : Nat} {l : Link} (herr : l.conn.errorCode = 0)
    (hs : l.conn.decodeStep = .length) (hm : m = expectedMask l.conn.role) (hL : L < 2 ^ 64)
    (hc : isControl (opcodeOf l.conn.hdrByte0) = true → L ≤ 125)
    (he : exceeds l.conn (BitVec.ofNat 64 L) = false) :
    rxBytes (lenField m L) l = .next (headerLengthDone { l with conn := lengthDecoded m L l.conn }) := by
  rcases Nat.lt_or_ge 125 L with h1 | h1
  · rcases Nat.lt_or_ge 65535 L with h2 | h2
    · rw [lenField_long h2 hL, rxBytes_cons_rule herr (by simp [ruleApplies, hs])]
      rw [stepRule_length hs,
        lengthRule_127 (lengthViolation_none hm (fun h => absurd (hc h) (by omega)) (fun h => absurd h (by decide)))
          (len7Of_byte1 _ _)]
      rw [show ∀ a b c d e f g h : Byte, [a, b, c, d, e, f, g, h] = [a, b, c, d, e, f, g] ++ [h] from
          fun _ _ _ _ _ _ _ _ => rfl,
        rxBytes_more_extended _ _ _ (by exact herr) rfl (by simp), rxBytes_last_extended (by exact herr) rfl (by simp),
        lastLengthByte_accepted (v := BitVec.ofNat 64 L) (by simpa only [List.foldl] using shiftIn_eight L hL)
          (by rw [BitVec.toNat_ofNat, Nat.mod_eq_of_lt hL]; omega) (by exact he)]
      refine congrArg _ (((headerLengthDone_step .length _).symm.trans ?_).trans (headerLengthDone_step .length _))
      simp [lengthDecoded, setStep, show ¬L ≤ 125 by omega, show ¬L ≤ 65535 by omega]
    · rw [lenField_middle h1 h2, rxBytes_cons_rule herr (by simp [ruleApplies, hs])]
      rw [stepRule_length hs,
        lengthRule_126 (lengthViolation_none hm (fun h => absurd (hc h) (by omega)) (fun h => absurd h (by decide)))
          (len7Of_byte1 _ _)]
      rw [rxBytes_more (by exact herr) (.inl ⟨rfl, rfl⟩)]
      rw [rxBytes_last_short (by exact herr) rfl (by simp [moreLengthByte]),
        lastLengthByte_accepted (v := BitVec.ofNat 64 L) (by simpa only [moreLengthByte] using shiftIn_two L h2)
          (by rw [BitVec.toNat_ofNat, Nat.mod_eq_of_lt hL]; omega) (by exact he)]
      refine congrArg _ (((headerLengthDone_step .length _).symm.trans ?_).trans (headerLengthDone_step .length _))
      simp [moreLengthByte, lengthDecoded, setStep, show ¬L ≤ 125 by omega, h2]
  · have hn : (BitVec.ofNat 7 L).toNat = L := by rw [BitVec.toNat_ofNat]; omega
    have hz : (BitVec.ofNat 7 L).zeroExtend 64 = BitVec.ofNat 64 L := by
      apply BitVec.eq_of_toNat_eq; simp; omega
    rw [lenField_short h1, rxBytes_singleton, rxByte_rule herr (by simp [ruleApplies, hs])]
    rw [stepRule_length hs,
      lengthRule_125 (lengthViolation_none hm (fun _ => by omega) (fun _ => by rw [hz]; exact he))
        (by rw [len7Of_byte1, hn]; exact h1),
      len7Of_byte1, hz]
    congr 1
    simp [lengthDecoded, h1]

/-! ### Key -/

theorem keyRule_more {b : Byte} {l : Link} (h : l.conn.fieldIdx ≠ 3) :
    keyRule b l =
      { l with
        conn :=
          { l.conn with
            hdrKey := l.conn.hdrKey.setIfInBounds l.conn.fieldIdx.toNat b
            fieldIdx := l.conn.fieldIdx + 1 } } := by
  simp only [keyRule, if_neg h]

theorem rxBytes_key_more {b : Byte} {bs : List Byte} {l : Link} (h : l.conn.errorCode = 0)
    (hs : l.conn.decodeStep = .key) (hi : l.conn.fieldIdx < 3) :
    rxBytes (b :: bs) l =
      rxBytes bs
        { l with
          conn :=
            { l.conn with
              hdrKey := l.conn.hdrKey.setIfInBounds l.conn.fieldIdx.toNat b
              fieldIdx := l.conn.fieldIdx + 1 } } := by
  rw [rxBytes_cons_rule h (by simp only [ruleApplies, hs, decide_eq_true_eq]; bv_omega)]
  rw [stepRule_key hs, keyRule_more (by bv_omega)]

theorem set_four (v : Key) (k0 k1 k2 k3 : Byte) :
    (((v.setIfInBounds 0 k0).setIfInBounds 1 k1).setIfInBounds 2 k2).setIfInBounds 3 k3 = #v[k0, k1, k2, k3] := by
  apply Vector.ext
  intro i hi
  match i, hi with
  | 0, _ => simp
  | 1, _ => simp
  | 2, _ => simp
  | 3, _ => simp

/-- Four key bytes (R143): the key is stored and DATA is entered. -/
theorem rxBytes_key {k : Key} {l : Link} (herr : l.conn.errorCode = 0) (hs : l.conn.decodeStep = .key)
    (hi : l.conn.fieldIdx = 0) :
    rxBytes k.toList l = .next (enterData { l with conn := { l.conn with hdrKey := k, fieldIdx := 3 } }) := by
  obtain ⟨⟨ks⟩, hk⟩ := k
  match ks, hk with
  | [k0, k1, k2, k3], hk =>
    show rxBytes [k0, k1, k2, k3] l = _
    rw [rxBytes_key_more herr hs (by simp [hi]), rxBytes_key_more (by exact herr) (by exact hs) (by simp [hi]),
      rxBytes_key_more (by exact herr) (by exact hs) (by simp [hi]), rxBytes_singleton,
      rxByte_rule (by exact herr) (by simp [ruleApplies, hs, hi])]
    rw [stepRule_key (by exact hs), keyRule, if_pos (by rw [hi]; rfl)]
    simp [hi, set_four]

end Sys2Proof.Machine
end

