-- ==== Sys2Proof/Laws/Payload.lean ====
section
/-!
SUPPORT. The payload of an accepted frame (R145): every byte of it, then END.
-/

namespace Sys2Proof.Machine

/-- One payload byte without the END that the last one runs (R145). -/
def payloadByte (l : Link) (b : Byte) : Link := takePayload (unmaskByte b l.conn) { l with conn := countByte l.conn }

theorem dataRule_eq (b : Byte) (l : Link) :
    dataRule b l =
      if (payloadByte l b).conn.payloadBytesRemaining = 0 then frameEnd (payloadByte l b) else payloadByte l b := rfl

theorem payloadByte_data {b : Byte} {l : Link} (h : isControl (opcodeOf l.conn.hdrByte0) = false) :
    payloadByte l b =
      { l with
        conn := countByte l.conn
        output := l.output ++ [.dlvData (unmaskByte b l.conn) (binFlag l.conn)] } := by
  have h' : ¬isControl (opcodeOf (countByte l.conn).hdrByte0) = true := by simp [h]
  simp only [payloadByte, takePayload, if_neg h']
  rfl

theorem payloadByte_control {b : Byte} {l : Link} (h : isControl (opcodeOf l.conn.hdrByte0) = true) :
    payloadByte l b = { l with conn := storeCtrl (unmaskByte b l.conn) (countByte l.conn) } := by
  have h' : isControl (opcodeOf (countByte l.conn).hdrByte0) = true := h
  simp only [payloadByte, takePayload, if_pos h']

/-- What a payload byte leaves alone, whichever way it goes. -/
theorem payloadByte_frame (l : Link) (b : Byte) :
    (payloadByte l b).conn.errorCode = l.conn.errorCode ∧ (payloadByte l b).conn.decodeStep = l.conn.decodeStep ∧
      (payloadByte l b).conn.hdrByte0 = l.conn.hdrByte0 ∧
      (payloadByte l b).conn.payloadBytesRemaining = l.conn.payloadBytesRemaining - 1 := by
  cases h : isControl (opcodeOf l.conn.hdrByte0)
  · rw [payloadByte_data h]; exact ⟨rfl, rfl, rfl, rfl⟩
  · rw [payloadByte_control h]; exact ⟨rfl, rfl, rfl, rfl⟩

/-- A whole payload (R145, R146): as many bytes as remain, then END. -/
theorem rxBytes_payload (b : Byte) (bs : List Byte) (l : Link) (herr : l.conn.errorCode = 0)
    (hs : l.conn.decodeStep = .data) (hr : l.conn.payloadBytesRemaining.toNat = bs.length + 1)
    (hc : isControl (opcodeOf l.conn.hdrByte0) = true → l.conn.ctrlLen.toNat + (bs.length + 1) ≤ 125) :
    rxBytes (b :: bs) l = .next (frameEnd ((b :: bs).foldl payloadByte l)) := by
  have happ : ∀ l : Link, l.conn.decodeStep = .data → l.conn.payloadBytesRemaining ≠ 0 →
      (isControl (opcodeOf l.conn.hdrByte0) = true → l.conn.ctrlLen.toNat < 125) → ruleApplies l.conn = true := by
    intro l h1 h2 h3
    simp only [ruleApplies, h1, Bool.and_eq_true, bne_iff_ne, Bool.or_eq_true, Config.ctrlMax]
    refine ⟨h2, ?_⟩
    cases h : isControl (opcodeOf l.conn.hdrByte0)
    · simp
    · exact .inr (decide_eq_true (h3 h))
  have hne : l.conn.payloadBytesRemaining ≠ 0 := fun h => by rw [h] at hr; simp at hr
  obtain ⟨e1, e2, e3, e4⟩ := payloadByte_frame l b
  have hrem : (payloadByte l b).conn.payloadBytesRemaining.toNat = bs.length := by
    rw [e4]; bv_omega
  rw [rxBytes_cons_rule herr (happ l hs hne fun h => by have := hc h; omega), stepRule_data hs, dataRule_eq]
  induction bs generalizing b l with
  | nil =>
    rw [if_pos (by apply BitVec.eq_of_toNat_eq; simpa using hrem)]
    rfl
  | cons b' bs ih =>
    have hne' : (payloadByte l b).conn.payloadBytesRemaining ≠ 0 := fun h => by rw [h] at hrem; simp at hrem
    have hc' : isControl (opcodeOf (payloadByte l b).conn.hdrByte0) = true →
        (payloadByte l b).conn.ctrlLen.toNat + (bs.length + 1) ≤ 125 := by
      intro h
      rw [e3] at h
      have h2 := hc h
      simp only [List.length_cons] at h2
      rw [payloadByte_control h]
      simp only [storeCtrl_ctrlLen]
      show (l.conn.ctrlLen + 1).toNat + _ ≤ _
      rw [BitVec.toNat_add]; simp; omega
    obtain ⟨f1, f2, f3, f4⟩ := payloadByte_frame (payloadByte l b) b'
    rw [if_neg hne',
      rxBytes_cons_rule (e1.trans herr) (happ _ (e2.trans hs) hne' fun h => by have := hc' h; omega),
      stepRule_data (e2.trans hs), dataRule_eq]
    exact ih b' (payloadByte l b) (e1.trans herr) (e2.trans hs) (by simpa using hrem) hc' hne' f1 f2 f3 f4
      (by rw [f4]; simp only [List.length_cons] at hrem; bv_omega)

/-- The payload of a data frame: one beat per byte (R171), the counters run down (R145). -/
theorem payload_data (bs : List Byte) (l : Link) (h : isControl (opcodeOf l.conn.hdrByte0) = false) :
    bs.foldl payloadByte l =
      { l with
        conn :=
          { l.conn with
            maskCounter :=
              if maskOf l.conn.hdrByte1 then l.conn.maskCounter + BitVec.ofNat 2 bs.length else l.conn.maskCounter
            payloadBytesRemaining := l.conn.payloadBytesRemaining - BitVec.ofNat 64 bs.length }
        output :=
          l.output ++
            (if maskOf l.conn.hdrByte1 then maskFrom l.conn.hdrKey l.conn.maskCounter bs else bs).map
              (.dlvData · (binFlag l.conn)) } := by
  induction bs generalizing l with
  | nil => cases maskOf l.conn.hdrByte1 <;> simp [maskFrom]
  | cons b bs ih =>
    rw [List.foldl_cons, payloadByte_data h, ih _ (by exact h)]
    have hn : ∀ (w : Nat) (x : BitVec w), x + 1 + BitVec.ofNat w bs.length = x + BitVec.ofNat w (bs.length + 1) := by
      intro w x; rw [BitVec.add_assoc, BitVec.ofNat_add, BitVec.add_comm (1 : BitVec w)]; rfl
    have hm : l.conn.payloadBytesRemaining - 1 - BitVec.ofNat 64 bs.length =
        l.conn.payloadBytesRemaining - BitVec.ofNat 64 (bs.length + 1) := by
      rw [BitVec.ofNat_add]; bv_omega
    cases hmask : maskOf l.conn.hdrByte1 <;>
      simp [countByte, hmask, unmaskByte, binFlag, maskFrom, ← hn, ← hm]

/-- A buffer with bytes written from index `n` on (R31, R190). -/
def writtenAt (buf : Vector Byte 125) (n : Nat) (u : List Byte) : Vector Byte 125 :=
  Vector.ofFn fun i => if i.val < n then buf[i.val] else u.getD (i.val - n) buf[i.val]

theorem writtenAt_nil (buf : Vector Byte 125) (n : Nat) : writtenAt buf n [] = buf := by
  apply Vector.ext; intro i hi; simp [writtenAt]

theorem writtenAt_cons (buf : Vector Byte 125) (n : Nat) (b : Byte) (u : List Byte) :
    writtenAt (buf.setIfInBounds n b) (n + 1) u = writtenAt buf n (b :: u) := by
  apply Vector.ext
  intro i hi
  simp only [writtenAt, Vector.getElem_ofFn, Vector.getElem_setIfInBounds]
  rcases Nat.lt_trichotomy i n with h | h | h
  · rw [if_pos (by omega), if_neg (by omega), if_pos h]
  · subst h
    rw [if_pos (by omega), if_pos rfl, if_neg (by omega)]; simp
  · rw [if_neg (by omega), if_neg (by omega), if_neg (by omega), show i - n = i - (n + 1) + 1 by omega]; rfl

theorem writtenAt_zero (buf : Vector Byte 125) (u : List Byte) : writtenAt buf 0 u = writtenCtrl buf u := by
  apply Vector.ext; intro i hi; simp [writtenAt, writtenCtrl]

/-- The part of the buffer that is read after a control frame is its payload (R190). -/
theorem take_writtenCtrl (buf : Vector Byte 125) (u : List Byte) (h : u.length ≤ 125) :
    (writtenCtrl buf u).toList.take u.length = u := by
  apply List.ext_getElem
  · simp [h]
  · intro i h1 h2
    simp [writtenCtrl, List.getD_eq_getElem?_getD, h2]

/-- The payload of a control frame: stored in the buffer (R190), the counters run down (R145). -/
theorem payload_control (bs : List Byte) (l : Link) (h : isControl (opcodeOf l.conn.hdrByte0) = true)
    (hl : l.conn.ctrlLen.toNat + bs.length ≤ 125) :
    bs.foldl payloadByte l =
      { l with
        conn :=
          { l.conn with
            maskCounter :=
              if maskOf l.conn.hdrByte1 then l.conn.maskCounter + BitVec.ofNat 2 bs.length else l.conn.maskCounter
            payloadBytesRemaining := l.conn.payloadBytesRemaining - BitVec.ofNat 64 bs.length
            ctrlBuf :=
              writtenAt l.conn.ctrlBuf l.conn.ctrlLen.toNat
                (if maskOf l.conn.hdrByte1 then maskFrom l.conn.hdrKey l.conn.maskCounter bs else bs)
            ctrlLen := l.conn.ctrlLen + BitVec.ofNat 7 bs.length } } := by
  induction bs generalizing l with
  | nil => cases maskOf l.conn.hdrByte1 <;> simp [maskFrom, writtenAt_nil]
  | cons b bs ih =>
    rw [List.length_cons] at hl
    have hlen : (l.conn.ctrlLen + 1).toNat = l.conn.ctrlLen.toNat + 1 := by
      rw [BitVec.toNat_add]; simp; omega
    rw [List.foldl_cons, payloadByte_control h, ih _ (by exact h)
      (by show (l.conn.ctrlLen + 1).toNat + _ ≤ _; omega)]
    have hn : ∀ (w : Nat) (x : BitVec w), x + 1 + BitVec.ofNat w bs.length = x + BitVec.ofNat w (bs.length + 1) := by
      intro w x; rw [BitVec.add_assoc, BitVec.ofNat_add, BitVec.add_comm (1 : BitVec w)]; rfl
    have hm : l.conn.payloadBytesRemaining - 1 - BitVec.ofNat 64 bs.length =
        l.conn.payloadBytesRemaining - BitVec.ofNat 64 (bs.length + 1) := by
      rw [BitVec.ofNat_add]; bv_omega
    have hl1 : (countByte l.conn).ctrlLen.toNat = l.conn.ctrlLen.toNat := rfl
    cases hmask : maskOf l.conn.hdrByte1 <;>
      simp only [storeCtrl_ctrlBuf, storeCtrl_ctrlLen, hl1] <;>
      simp only [storeCtrl, countByte, hmask, unmaskByte, maskFrom, ← hn, ← hm, hlen, writtenAt_cons,
        List.length_cons, if_true, Bool.false_eq_true, if_false]

end Sys2Proof.Machine
end

