-- ==== Sys2Proof/Laws/Frame.lean ====
section
/-!
SUPPORT. What END does for each opcode, what a command ends with, and a whole accepted frame, header to END.
-/

namespace Sys2Proof.Machine

/-! ### Links and the key source -/

theorem link_eq {l l' : Link} (h1 : l.conn = l'.conn) (h2 : l.keys = l'.keys) (h3 : l.draws = l'.draws)
    (h4 : l.output = l'.output) : l = l' := by
  cases l; cases l'; simp_all

/-- What a draw depends on (R226). -/
theorem drawFor_congr (l l' : Link) (hr : l.conn.role = l'.conn.role) (hk : l.keys = l'.keys)
    (hd : l.draws = l'.draws) :
    (drawFor l).1 = (drawFor l').1 ∧ (drawFor l).2.keys = (drawFor l').2.keys ∧
      (drawFor l).2.draws = (drawFor l').2.draws := by
  unfold drawFor drawKey
  rw [hr, hk, hd]
  cases l'.conn.role <;> cases hh : l'.keys <;> simp_all

theorem drawFor_setStep (d : DecodeStep) (l : Link) : drawFor (setStep d l) = ((drawFor l).1, setStep d (drawFor l).2) := by
  obtain ⟨h1, h2, h3⟩ := drawFor_congr (setStep d l) l rfl rfl rfl
  exact Prod.ext h1 (link_eq (by simp) h2 h3 (by simp))

theorem sendFrame_keys (fin : Bool) (op : BitVec 4) (p : List Byte) (l : Link) :
    (sendFrame fin op p l).keys = (drawFor l).2.keys := rfl

theorem sendFrame_draws (fin : Bool) (op : BitVec 4) (p : List Byte) (l : Link) :
    (sendFrame fin op p l).draws = (drawFor l).2.draws := rfl

/-- Sending a frame: the key source and the output change, nothing else (R230). -/
theorem sendFrame_eq (fin : Bool) (op : BitVec 4) (p : List Byte) (l : Link) :
    sendFrame fin op p l =
      { (drawFor l).2 with
        conn := l.conn
        output := l.output ++ [.tx (encodeTx l.conn.role fin op (drawFor l).1 p)] } := by
  refine link_eq ?_ ?_ ?_ ?_ <;> simp <;> rfl

/-! ### The end of an instruction -/

theorem rxStatus_ok {c : Conn} (h : c.errorCode = 0) : rxStatus c = .ok := by
  simp [rxStatus, halted_eq_false h]

theorem received_eq_after {s : State} {l : Link} {c : Conn} {o : List Output} {st : Status}
    (hl : l = { s.link with conn := c, output := s.link.output ++ o }) (hst : rxStatus c = st) :
    s.received l = s.after c o st := by
  subst hl; subst hst; rfl

theorem received_eq_afterSend {s : State} {l : Link} {c : Conn} {o : List Output} {st : Status} (h1 : l.conn = c)
    (h2 : l.keys = (drawFor s.link).2.keys) (h3 : l.draws = (drawFor s.link).2.draws)
    (h4 : l.output = s.link.output ++ o) (hst : rxStatus c = st) : s.received l = s.afterSend c o st := by
  have : l = { (drawFor s.link).2 with conn := c, output := s.link.output ++ o } := link_eq h1 h2 h3 h4
  subst this; subst hst; rfl

theorem runCommand_after {s : State} {f : Link → Link × Status} {c : Conn} {o : List Output} {st : Status}
    (hi : s.initialised = true) (hf : f s.link = ({ s.link with conn := c, output := s.link.output ++ o }, st)) :
    runCommand f s = .next (s.after c o st) := by
  rw [runCommand, if_pos hi, hf]; rfl

theorem runCommand_afterSend {s : State} {f : Link → Link × Status} {c : Conn} {o : List Output} {st : Status}
    (hi : s.initialised = true)
    (hf : f s.link = ({ (drawFor s.link).2 with conn := c, output := s.link.output ++ o }, st)) :
    runCommand f s = .next (s.afterSend c o st) := by
  rw [runCommand, if_pos hi, hf]; rfl

/-! ### END, one opcode class each -/

theorem frameEnd_data_output (l : Link) (h : isData (opcodeOf l.conn.hdrByte0) = true) :
    (frameEnd l).output =
      l.output ++
        [.dlvEnd (fragState (finOf l.conn.hdrByte0) (opcodeOf l.conn.hdrByte0)) (binFlag l.conn)] := by
  simp only [frameEnd, endAction, setStep_conn, h, if_true, onData]; simp [binFlag]

theorem frameEnd_data (l : Link) (h : isData (opcodeOf l.conn.hdrByte0) = true) :
    frameEnd l =
      { l with
        conn := { l.conn with decodeStep := .start }
        output :=
          l.output ++
            [.dlvEnd (fragState (finOf l.conn.hdrByte0) (opcodeOf l.conn.hdrByte0)) (binFlag l.conn)] } := by
  have he : endAction (setStep .endStep l) = onData (setStep .endStep l) := by unfold endAction; exact if_pos h
  refine link_eq ?_ ?_ ?_ (frameEnd_data_output l h)
  · rw [frameEnd_conn, isData_not_close h, Bool.or_false]
  · rw [frameEnd, he]; rfl
  · rw [frameEnd, he]; rfl

theorem frameEnd_close (l : Link) (h : opcodeOf l.conn.hdrByte0 = 8) :
    frameEnd l =
      if l.conn.closeSent then
        { l with conn := { l.conn with decodeStep := .start }, output := l.output ++ [.evShutdown] }
      else
        { (drawFor l).2 with
          conn := { l.conn with decodeStep := .start, closeSent := true }
          output :=
            l.output ++ [.tx (encodeTx l.conn.role true 8 (drawFor l).1 (ctrlPayload l.conn)), .evShutdown] } := by
  have he : endAction (setStep .endStep l) = onClose (setStep .endStep l) := by simp [endAction, h, isData]
  cases hc : l.conn.closeSent
  · refine link_eq ?_ ?_ ?_ ?_
    · rw [frameEnd_conn, hc, h]; rfl
    · rw [frameEnd, he]; simp [onClose, hc, sendFrame_keys, drawFor_setStep]
    · rw [frameEnd, he]; simp [onClose, hc, sendFrame_draws, drawFor_setStep]
    · rw [frameEnd, he]; simp [onClose, hc, drawFor_setStep, ctrlPayload]
  · refine link_eq ?_ ?_ ?_ ?_
    · rw [frameEnd_conn, hc, h]; simp; exact hc
    · rw [frameEnd, he]; simp [onClose, hc]
    · rw [frameEnd, he]; simp [onClose, hc]
    · rw [frameEnd, he]; simp [onClose, hc]

theorem frameEnd_ping (l : Link) (h : opcodeOf l.conn.hdrByte0 = 9) :
    frameEnd l =
      { (drawFor l).2 with
        conn := { l.conn with decodeStep := .start }
        output := l.output ++ [.tx (encodeTx l.conn.role true 0xA (drawFor l).1 (ctrlPayload l.conn))] } := by
  have he : endAction (setStep .endStep l) = onPing (setStep .endStep l) := by simp [endAction, h, isData]
  refine link_eq ?_ ?_ ?_ ?_
  · rw [frameEnd_conn, h]; simp
  · rw [frameEnd, he]; simp [onPing, sendFrame_keys, drawFor_setStep]
  · rw [frameEnd, he]; simp [onPing, sendFrame_draws, drawFor_setStep]
  · rw [frameEnd, he]; simp [onPing, drawFor_setStep, ctrlPayload]

theorem frameEnd_pong (l : Link) (h : opcodeOf l.conn.hdrByte0 = 0xA) :
    frameEnd l =
      { l with
        conn := { l.conn with decodeStep := .start }
        output := l.output ++ if l.conn.pongNotify then [.evPong l.conn.ctrlLen] else [] } := by
  have he : endAction (setStep .endStep l) = onPong (setStep .endStep l) := by simp [endAction, h, isData]
  refine link_eq ?_ ?_ ?_ ?_
  · rw [frameEnd_conn, h]; simp
  all_goals rw [frameEnd, he]; by_cases hp : l.conn.pongNotify = true <;> simp [onPong, hp]

theorem frameEnd_reserved (l : Link) (h : isReserved (opcodeOf l.conn.hdrByte0) = true) :
    frameEnd l = { l with conn := { l.conn with decodeStep := .start } } := by
  have hne : ∀ x, isReserved x = false → opcodeOf l.conn.hdrByte0 ≠ x := fun x hx e => by rw [e, hx] at h; cases h
  have hd : ¬isData (opcodeOf l.conn.hdrByte0) = true := by
    rcases opcode_classes (opcodeOf l.conn.hdrByte0) with ⟨-, -, h'⟩ | ⟨-, -, h'⟩ | ⟨h', -, -⟩ <;> simp_all
  have he : endAction (setStep .endStep l) = setStep .endStep l := by
    unfold endAction
    rw [if_neg (by exact hd), if_neg (by exact hne 8 (by decide)), if_neg (by exact hne 9 (by decide)),
      if_neg (by exact hne 10 (by decide))]
  rw [frameEnd, he]; rfl

/-- All that END does, said once for every defined opcode (R146, R147): `c` is the Connection the ending byte has left. -/
theorem received_frameEnd {s : State} {c : Conn} {p : List Byte} (he : c.errorCode = 0) (hr : c.role = s.conn.role)
    (hop : isReserved (opcodeOf c.hdrByte0) = false) (hl : c.ctrlLen.toNat ≤ 125)
    (hp : isControl (opcodeOf c.hdrByte0) = true → ctrlPayload c = p) :
    s.received (frameEnd { s.link with conn := c }) = s.afterEnd c p := by
  have hd := drawFor_congr { s.link with conn := c } s.link hr rfl rfl
  have hlen : (ctrlPayload c).length = c.ctrlLen.toNat := by simp [ctrlPayload, hl]
  have hst : ∀ d : Conn, d.errorCode = c.errorCode → rxStatus d = .ok := fun d h => rxStatus_ok (h.trans he)
  have hk : isData (opcodeOf c.hdrByte0) = true ∨ opcodeOf c.hdrByte0 = 8 ∨ opcodeOf c.hdrByte0 = 9 ∨
      opcodeOf c.hdrByte0 = 0xA := by
    clear * - hop; revert hop; generalize opcodeOf c.hdrByte0 = op; revert op; decide
  unfold State.afterEnd
  rcases hk with h | h | h | h
  · have hn : ∀ x, isData x = false → opcodeOf c.hdrByte0 ≠ x := fun x hx e => by rw [e, hx] at h; cases h
    rw [frameEnd_data { s.link with conn := c } h, if_neg (hn 8 (by decide)), if_neg (hn 9 (by decide)),
      if_neg (hn 10 (by decide))]
    exact received_eq_after rfl (hst _ rfl)
  · rw [if_pos h, frameEnd_close { s.link with conn := c } h, ← hp (by rw [h]; decide)]
    by_cases hc : c.closeSent = true
    · refine (congrArg _ (if_pos hc)).trans (.trans ?_ (if_pos hc).symm)
      exact received_eq_after rfl (hst _ rfl)
    · refine (congrArg _ (if_neg hc)).trans (.trans ?_ (if_neg hc).symm)
      exact received_eq_afterSend rfl hd.2.1 hd.2.2 (by rw [hd.1]) (hst _ rfl)
  · rw [if_neg (by rw [h]; decide), if_pos h, frameEnd_ping { s.link with conn := c } h, ← hp (by rw [h]; decide)]
    exact received_eq_afterSend rfl hd.2.1 hd.2.2 (by rw [hd.1]) (hst _ rfl)
  · rw [if_neg (by rw [h]; decide), if_neg (by rw [h]; decide), if_pos h, frameEnd_pong { s.link with conn := c } h,
      ← hp (by rw [h]; decide), hlen]
    exact received_eq_after (by simp) (hst _ rfl)

/-! ### A whole accepted frame -/

/-- The Connection when the payload of a frame begins: the key is in, the counters are cleared (R143, R144). -/
def bodyConn (c : Conn) (key : Option Key) : Conn :=
  { c with
    hdrKey := key.getD c.hdrKey
    fieldIdx := if key.isSome then 3 else c.fieldIdx
    maskCounter := 0
    ctrlLen := 0 }

/-- The link when the last payload byte is in, before END. -/
def bodyDone (key : Option Key) (p : List Byte) (c : Conn) (l : Link) : Link :=
  { l with
    conn :=
      { bodyConn c key with
        payloadBytesRemaining := 0
        maskCounter := if key.isSome then BitVec.ofNat 2 p.length else 0
        ctrlLen := if isControl (opcodeOf c.hdrByte0) then BitVec.ofNat 7 p.length else 0
        ctrlBuf := if isControl (opcodeOf c.hdrByte0) then writtenCtrl c.ctrlBuf p else c.ctrlBuf }
    output :=
      l.output ++ (if isControl (opcodeOf c.hdrByte0) then [] else p.map (.dlvData · (binFlag c))) }

theorem rxBytes_body_data {key : Option Key} {p : List Byte} {l : Link} {c : Conn} (herr : c.errorCode = 0)
    (hm : maskOf c.hdrByte1 = key.isSome) (hr : c.payloadBytesRemaining = BitVec.ofNat 64 p.length)
    (hp : p.length < 2 ^ 64) (hc : isControl (opcodeOf c.hdrByte0) = true → p.length ≤ 125) (q : List Byte) (c' : Conn)
    (hc' : bodyConn c key = { c' with decodeStep := c.decodeStep, maskCounter := 0, ctrlLen := 0 })
    (hq : q = (match key with | none => p | some k => mask k p)) :
    rxBytes q (enterData { l with conn := c' }) = .next (frameEnd (bodyDone key p c l)) := by
  have hb0 : c'.hdrByte0 = c.hdrByte0 := (congrArg Conn.hdrByte0 hc').symm
  have hb1 : c'.hdrByte1 = c.hdrByte1 := (congrArg Conn.hdrByte1 hc').symm
  have hrem : c'.payloadBytesRemaining = c.payloadBytesRemaining := (congrArg Conn.payloadBytesRemaining hc').symm
  have herr' : c'.errorCode = 0 := (congrArg Conn.errorCode hc').symm.trans herr
  have hkey : c'.hdrKey = key.getD c.hdrKey := (congrArg Conn.hdrKey hc').symm
  have hbuf : c'.ctrlBuf = c.ctrlBuf := (congrArg Conn.ctrlBuf hc').symm
  have hlast : c'.lastOpcode = c.lastOpcode := (congrArg Conn.lastOpcode hc').symm
  have hqlen : q.length = p.length := by rw [hq]; cases key <;> simp
  have huq : (if maskOf c'.hdrByte1 then maskFrom c'.hdrKey 0 q else q) = p := by
    rw [hb1, hm, hkey, hq]
    cases key
    · rfl
    · simp [mask, maskFrom_maskFrom]
  cases hqq : q with
  | nil =>
    have hp0 : p = [] := by rw [hqq] at hqlen; exact List.length_eq_zero_iff.mp hqlen.symm
    have hz : c'.payloadBytesRemaining = 0 := by rw [hrem, hr, hp0]; rfl
    rw [rxBytes_nil, enterData, if_pos hz]
    refine congrArg _ ((frameEnd_setStep c.decodeStep _).symm.trans (congrArg frameEnd ?_))
    rw [bodyDone, hc']
    simp only [hp0, setStep, hb0]
    have : writtenCtrl c.ctrlBuf [] = c.ctrlBuf := by rw [← writtenAt_zero, writtenAt_nil]
    simp [this, hz, hbuf]
  | cons b bs =>
    rw [hqq] at hqlen huq
    have hnz : ¬c'.payloadBytesRemaining = 0 := by
      rw [hrem, hr]; intro h; have := congrArg BitVec.toNat h; simp at this hqlen; omega
    have hmm : maskOf c'.hdrByte1 = key.isSome := by rw [hb1, hm]
    have hlen : bs.length + 1 = p.length := hqlen
    rw [enterData, if_neg hnz]
    rw [rxBytes_payload b bs _ (by exact herr') rfl
      (by
        show c'.payloadBytesRemaining.toNat = _
        rw [hrem, hr, BitVec.toNat_ofNat, Nat.mod_eq_of_lt hp, ← hqlen]; rfl)
      (by intro h; have := hc (by rw [← hb0]; exact h); simp only [setStep_conn]; simp; omega)]
    refine congrArg _ ((frameEnd_setStep c.decodeStep _).symm.trans (congrArg frameEnd ?_))
    rw [bodyDone, hc']
    cases hcc : isControl (opcodeOf c.hdrByte0)
    · rw [payload_data _ _ (by simp only [setStep_conn]; rw [hb0]; exact hcc)]
      cases key <;>
        (simp only [setStep, hmm, hrem, hr, binFlag, hlast, Option.isSome] at huq ⊢
         simp at huq
         simp [huq, hbuf, hlen])
    · rw [payload_control _ _ (by simp only [setStep_conn]; rw [hb0]; exact hcc)
        (by simp only [setStep_conn]; rw [hqlen]; simpa using hc hcc)]
      cases key <;>
        (simp only [setStep, hmm, hrem, hr, binFlag, hlast, Option.isSome] at huq ⊢
         simp at huq
         simp [huq, hbuf, hlen, writtenAt_zero])

/-- After the length field: the key and the whole payload, then END (R142 to R147). -/
theorem rxBytes_body {key : Option Key} {p : List Byte} {l : Link} {c : Conn} (herr : c.errorCode = 0)
    (hm : maskOf c.hdrByte1 = key.isSome) (hr : c.payloadBytesRemaining = BitVec.ofNat 64 p.length)
    (hp : p.length < 2 ^ 64) (hc : isControl (opcodeOf c.hdrByte0) = true → p.length ≤ 125) :
    rxBytes (wireBody key p) (headerLengthDone { l with conn := c }) = .next (frameEnd (bodyDone key p c l)) := by
  cases key with
  | none =>
    have : headerLengthDone { l with conn := c } = enterData { l with conn := c } := by simp [headerLengthDone, hm]
    rw [this]
    exact rxBytes_body_data herr hm hr hp hc p c (by simp [bodyConn]) rfl
  | some k =>
    have : headerLengthDone { l with conn := c } = { l with conn := { c with decodeStep := .key, fieldIdx := 0 } } := by
      simp [headerLengthDone, hm]
    rw [wireBody, this, rxBytes_append_next (rxBytes_key (by exact herr) rfl rfl)]
    exact rxBytes_body_data herr hm hr hp hc (mask k p) _ (by simp [bodyConn]) rfl

/-- A whole accepted frame, up to END (R131 to R147). -/
theorem rxBytes_frame {op : BitVec 4} {f : Frame} {l : Link} (herr : l.conn.errorCode = 0)
    (hs : l.conn.decodeStep = .start) (hop : isReserved op = false) (ha : l.conn.Accepts f)
    (hp : f.payload.length < 2 ^ 64) (hc : isControl op = true → f.payload.length ≤ 125) :
    rxBytes (f.bytes op) l =
      .next
        (frameEnd
          { l with
            conn := l.conn.afterFrame op f
            output :=
              l.output ++
                (if isControl op then [] else f.payload.map (.dlvData · (nextLastOpcode op l.conn.lastOpcode == 2))) }) := by
  rw [Frame.bytes, wireFrame, rxBytes_cons_rule herr (by simp [ruleApplies, hs]), stepRule_start hs,
    startRule_defined _ _ _ _ hop,
    rxBytes_append_next
      (rxBytes_lenField (m := f.key.isSome) (L := f.payload.length)
        (l :=
          { l with
            conn :=
              { l.conn with
                hdrByte0 := byte0 f.fin f.rsv op
                lastOpcode := nextLastOpcode op l.conn.lastOpcode
                decodeStep := .length } })
        (by exact herr) rfl ha.maskAgrees hp (by simpa using hc) (by exact ha.withinMaximum))]
  rw [rxBytes_body (c := lengthDecoded _ _ _) (by exact herr) (by simp [lengthDecoded]) rfl hp
    (by simpa [lengthDecoded] using hc)]
  refine congrArg _ ((frameEnd_setStep .start _).symm.trans (congrArg frameEnd ?_))
  simp [setStep, bodyDone, bodyConn, lengthDecoded, Conn.afterFrame, binFlag]

/-- What END reads from the control buffer after a control frame is that frame's payload (R190). -/
theorem ctrlPayload_afterFrame {op : BitVec 4} {f : Frame} (c : Conn) (hop : isControl op = true)
    (hp : f.payload.length ≤ 125) : ctrlPayload (c.afterFrame op f) = f.payload := by
  simp only [ctrlPayload, Conn.afterFrame, hop, if_true]
  rw [BitVec.toNat_ofNat, Nat.mod_eq_of_lt (by omega)]
  exact take_writtenCtrl _ _ hp

/-- A defined opcode's instruction feeds its frame's bytes. -/
theorem frameInstr_exec {op : BitVec 4} {f : Frame} {i : Instr} (h : frameInstr op f = some i) (s : State) :
    isReserved op = false ∧ exec i s = receive (f.bytes op) s ∧
      i.wf = (if isControl op then f.ctrlWf else f.dataWf) := by
  unfold frameInstr at h
  repeat
    split at h
    · cases h; rename_i hh; subst hh; exact ⟨by decide, rfl, by simp [isControl, Instr.wf]⟩
  cases h

end Sys2Proof.Machine
end

