-- ==== Sys2Proof/Laws/Length.lean ====
section
/-!
SUPPORT. A length field whose last byte is judged (R139, R141), and one that is over the maximum.
-/

namespace Sys2Proof.Machine

theorem lenField_cons (m : Bool) (L : Nat) : ∃ n ext, lenField m L = byte1 m n :: ext := by
  unfold lenField; split
  · exact ⟨_, _, rfl⟩
  · split <;> exact ⟨_, _, rfl⟩

theorem lengthOf_snoc (ext : List Byte) (b : Byte) : lengthOf (ext ++ [b]) = shiftIn (lengthOf ext) b := by
  simp [lengthOf]

/-- The link in an extended length, at the given step, with these bytes shifted in. -/
def extLink (b1 : Byte) (d : DecodeStep) (e : BitVec 64) (i : BitVec 3) (l : Link) : Link :=
  { l with conn := { l.conn with hdrByte1 := b1, hdrExtLen := e, fieldIdx := i, decodeStep := d } }

/-- Byte 1 and the two bytes of the short form (R137, R138, R139). -/
theorem rxBytes_short {b1 a b : Byte} {l : Link} (herr : l.conn.errorCode = 0) (hs : l.conn.decodeStep = .length)
    (hv : lengthViolation b1 l.conn = none) (h1 : len7Of b1 = 126) :
    rxBytes [b1, a, b] l = .next (lastLengthByte 126 b (extLink b1 .shortLength (shiftIn 0 a) 1 l)) := by
  rw [rxBytes_cons_rule herr (by simp [ruleApplies, hs]), stepRule_length hs, lengthRule_126 hv h1,
    rxBytes_more (by exact herr) (.inl ⟨rfl, rfl⟩), rxBytes_last_short (by exact herr) rfl (by simp [moreLengthByte])]
  rfl

/-- Byte 1 and the eight bytes of the long form (R137, R140, R141). -/
theorem rxBytes_long {b1 b : Byte} {ext : List Byte} {l : Link} (herr : l.conn.errorCode = 0)
    (hs : l.conn.decodeStep = .length) (hv : lengthViolation b1 l.conn = none) (h1 : len7Of b1 = 127)
    (he : ext.length = 7) :
    rxBytes (b1 :: (ext ++ [b])) l =
      .next (lastLengthByte 65536 b (extLink b1 .extendedLength (lengthOf ext) 7 l)) := by
  rw [rxBytes_cons_rule herr (by simp [ruleApplies, hs]), stepRule_length hs, lengthRule_127 hv h1,
    rxBytes_more_extended _ _ _ (by exact herr) rfl (by simp [he]),
    rxBytes_last_extended (by exact herr) rfl (by simp [he])]
  simp [extLink, he, lengthOf]

/-- The last byte of an extended length raises its violation (R139, R141). -/
theorem lastLengthByte_violation {least : Nat} {b b1 : Byte} {e : BitVec 64} {d : DecodeStep} {i : BitVec 3} {l : Link}
    {v : Violation} (h : extLenViolation least (shiftIn e b) l.conn = some v) :
    lastLengthByte least b (extLink b1 d e i l) = raiseViolation v (extLink b1 d e i l) := by
  have h' : extLenViolation least (shiftIn (extLink b1 d e i l).conn.hdrExtLen b) (extLink b1 d e i l).conn = some v := h
  simp only [lastLengthByte, h']

theorem exceeds_iff (c : Conn) (L : Nat) (hL : L < 2 ^ 64) :
    exceeds c (BitVec.ofNat 64 L) = true ↔ c.maxPayloadEn = true ∧ c.maxPayloadBytes.toNat < L := by
  simp only [exceeds, Bool.and_eq_true, decide_eq_true_eq, BitVec.lt_def, BitVec.toNat_ofNat, Nat.mod_eq_of_lt hL]

/-- The same link with another byte 0. -/
def setByte0 (x : Byte) (l : Link) : Link := { l with conn := { l.conn with hdrByte0 := x } }

/-- A length field over the maximum (R135, R139, R141): violation 5 on its last byte, in a link that differs only in
the header registers; which they are does not depend on byte 0 beyond its opcode. -/
theorem rxBytes_lenField_exceeds {m : Bool} {L : Nat} {l : Link} (herr : l.conn.errorCode = 0)
    (hs : l.conn.decodeStep = .length) (hm : m = expectedMask l.conn.role) (hL : L < 2 ^ 64)
    (hc : isControl (opcodeOf l.conn.hdrByte0) = true → L ≤ 125) (he : exceeds l.conn (BitVec.ofNat 64 L) = true) :
    ∃ b1 d e i, ∀ x, opcodeOf x = opcodeOf l.conn.hdrByte0 →
      rxBytes (lenField m L) (setByte0 x l) =
        .next (raiseViolation .payloadTooLarge (extLink b1 d e i (setByte0 x l))) := by
  have hmax : ∀ x least, least ≤ L →
      extLenViolation least (BitVec.ofNat 64 L) (setByte0 x l).conn = some .payloadTooLarge := by
    intro x least hle
    have he' : exceeds (setByte0 x l).conn (BitVec.ofNat 64 L) = true := he
    simp only [extLenViolation, he', if_true]
    rw [if_neg]; rw [BitVec.toNat_ofNat, Nat.mod_eq_of_lt hL]; omega
  have hnone : ∀ (n : BitVec 7) x, 125 < n.toNat → 125 < L → opcodeOf x = opcodeOf l.conn.hdrByte0 →
      lengthViolation (byte1 m n) (setByte0 x l).conn = none := by
    intro n x hn h1 hx
    exact lengthViolation_none hm (fun h => absurd (hc (by rw [← hx]; exact h)) (by omega)) (fun h => absurd h (by omega))
  rcases Nat.lt_or_ge 125 L with h1 | h1
  · rcases Nat.lt_or_ge 65535 L with h2 | h2
    · refine ⟨byte1 m 127, .extendedLength,
        lengthOf [lengthByte L 7, lengthByte L 6, lengthByte L 5, lengthByte L 4, lengthByte L 3, lengthByte L 2,
          lengthByte L 1], 7, fun x hx => ?_⟩
      rw [lenField_long h2 hL]
      refine (rxBytes_long (l := setByte0 x l) (b := lengthByte L 0)
        (ext := [lengthByte L 7, lengthByte L 6, lengthByte L 5, lengthByte L 4, lengthByte L 3, lengthByte L 2,
          lengthByte L 1]) herr hs (hnone 127 x (by decide) h1 hx) (len7Of_byte1 _ _) rfl).trans ?_
      rw [lastLengthByte_violation]
      rw [← lengthOf_snoc]; simp only [List.cons_append, List.nil_append]; rw [lengthOf_eight L hL]
      exact hmax x _ (by omega)
    · refine ⟨byte1 m 126, .shortLength, shiftIn 0 (lengthByte L 1), 1, fun x hx => ?_⟩
      rw [lenField_middle h1 h2,
        rxBytes_short (l := setByte0 x l) herr hs (hnone 126 x (by decide) h1 hx) (len7Of_byte1 _ _),
        lastLengthByte_violation]
      rw [shiftIn_two L h2]
      exact hmax x _ (by omega)
  · refine ⟨l.conn.hdrByte1, l.conn.decodeStep, l.conn.hdrExtLen, l.conn.fieldIdx, fun x hx => ?_⟩
    rw [lenField_short h1, rxBytes_singleton, rxByte_rule (l := setByte0 x l) herr (by simp [ruleApplies, hs, setByte0]),
      stepRule_length (l := setByte0 x l) hs, lengthRule]
    have hn : (BitVec.ofNat 7 L).toNat = L := by rw [BitVec.toNat_ofNat]; omega
    have hz : (BitVec.ofNat 7 L).zeroExtend 64 = BitVec.ofNat 64 L := by
      apply BitVec.eq_of_toNat_eq; simp; omega
    have he' : exceeds (setByte0 x l).conn (BitVec.ofNat 64 L) = true := he
    have : lengthViolation (byte1 m (BitVec.ofNat 7 L)) (setByte0 x l).conn = some .payloadTooLarge := by
      simp only [lengthViolation, maskOf_byte1, len7Of_byte1, hn, hz, he']
      rw [if_neg (by simp [hm, setByte0]), if_neg (by simp; omega), if_pos (by simp [h1])]
    rw [this]; rfl

end Sys2Proof.Machine
end

