-- ==== Sys2Proof/Laws/Step.lean ====
section
/-!
SUPPORT. Everything one byte, one instruction and one step can do.
-/

namespace Sys2Proof.Machine

/-! ### What END can emit (R75) -/

/-- The output of END: nothing, one beat, a close echo, EV_SHUTDOWN, a pong, EV_PONG. -/
def EndOut (out : List Output) : Prop :=
  out = [] ∨ (∃ fs bin, out = [.dlvEnd fs bin]) ∨ (∃ bs, out = [.tx bs, .evShutdown]) ∨ out = [.evShutdown] ∨
    (∃ bs, out = [.tx bs]) ∨ (∃ n, out = [.evPong n])

theorem encodeTx_not_close {role : Role} {fin : Bool} {op : BitVec 4} {k : Key} {p : List Byte} (h : op ≠ 8) :
    isCloseFrame (.tx (encodeTx role fin op k p)) = false := by
  simp [isCloseFrame, encodeTx, wireFrame]; exact h

/-- The opcode of an END is data, reserved, or one of the three control opcodes (R11, R95). -/
theorem opcode_kinds (op : BitVec 4) :
    isData op = true ∨ isReserved op = true ∨ op = 0x8 ∨ op = 0x9 ∨ op = 0xA := by revert op; decide

/-- END emits one of the lists of R75, ends a data frame with one beat, and sends no second close (R32, R191). -/
theorem frameEnd_out (l : Link) :
    ∃ out, (frameEnd l).output = l.output ++ out ∧ EndOut out ∧
      (isData (opcodeOf l.conn.hdrByte0) = true → ∃ fs bin, out = [.dlvEnd fs bin]) ∧
      (isReserved (opcodeOf l.conn.hdrByte0) = true → out = []) ∧
      (l.conn.closeSent = true → ∀ o ∈ out, isCloseFrame o = false) := by
  rcases opcode_kinds (opcodeOf l.conn.hdrByte0) with h | h | h | h | h
  · refine ⟨_, frameEnd_data_output l h, .inr (.inl ⟨_, _, rfl⟩), fun _ => ⟨_, _, rfl⟩, fun h' => ?_, fun _ => ?_⟩
    · rcases opcode_classes (opcodeOf l.conn.hdrByte0) with ⟨-, -, e⟩ | ⟨e, -, -⟩ | ⟨e, -, -⟩ <;> simp_all
    · simp [isCloseFrame]
  · refine ⟨[], by rw [frameEnd_reserved l h]; simp, .inl rfl, fun h' => ?_, fun _ => rfl, by simp⟩
    rcases opcode_classes (opcodeOf l.conn.hdrByte0) with ⟨-, -, e⟩ | ⟨e, -, -⟩ | ⟨e, -, -⟩ <;> simp_all
  · rw [frameEnd_close l h, h]
    split
    · exact ⟨_, rfl, .inr (.inr (.inr (.inl rfl))), fun h => absurd h (by decide), fun h => absurd h (by decide),
        by simp [isCloseFrame]⟩
    · rename_i hn
      exact ⟨_, rfl, .inr (.inr (.inl ⟨_, rfl⟩)), fun h => absurd h (by decide), fun h => absurd h (by decide),
        fun h => absurd h hn⟩
  · rw [frameEnd_ping l h, h]
    refine ⟨_, rfl, .inr (.inr (.inr (.inr (.inl ⟨_, rfl⟩)))), fun h => absurd h (by decide),
      fun h => absurd h (by decide), fun _ => ?_⟩
    simp only [List.mem_singleton, forall_eq]
    exact encodeTx_not_close (by decide)
  · rw [frameEnd_pong l h, h]
    cases l.conn.pongNotify
    · exact ⟨_, rfl, .inl rfl, fun h => absurd h (by decide), fun h => absurd h (by decide), by simp⟩
    · exact ⟨_, rfl, .inr (.inr (.inr (.inr (.inr ⟨_, rfl⟩)))), fun h => absurd h (by decide),
        fun h => absurd h (by decide), by simp [isCloseFrame]⟩

/-! ### What a byte keeps -/

/-- What no byte ever changes: the configuration and a `closeSent` that is set (R40). -/
structure Conn.Keeps (c c' : Conn) : Prop where
  role : c'.role = c.role
  maxPayloadEn : c'.maxPayloadEn = c.maxPayloadEn
  maxPayloadBytes : c'.maxPayloadBytes = c.maxPayloadBytes
  pongNotify : c'.pongNotify = c.pongNotify
  closeSent : c.closeSent = true → c'.closeSent = true

theorem Conn.Keeps.rfl' (c : Conn) : c.Keeps c := ⟨rfl, rfl, rfl, rfl, id⟩

theorem Conn.Keeps.trans {a b c : Conn} (h : a.Keeps b) (h' : b.Keeps c) : a.Keeps c :=
  ⟨h'.1.trans h.1, h'.2.trans h.2, h'.3.trans h.3, h'.4.trans h.4, fun e => h'.5 (h.5 e)⟩

theorem frameEnd_keeps (l : Link) : l.conn.Keeps (frameEnd l).conn := by
  rw [frameEnd_conn]; exact ⟨rfl, rfl, rfl, rfl, fun h => by simp [h]⟩

/-- All that entering DATA, with or without the header's key before it, can do (R142, R144). -/
structure Enters (l l' : Link) (dest : DecodeStep) : Prop where
  output : ∃ out, l'.output = l.output ++ out ∧ EndOut out ∧
    (l.conn.closeSent = true → ∀ o ∈ out, isCloseFrame o = false)
  errorCode : l'.conn.errorCode = l.conn.errorCode
  keeps : l.conn.Keeps l'.conn
  decodeStep : l'.conn.decodeStep = dest

theorem enterData_enters (l : Link) :
    Enters l (enterData l) (if l.conn.payloadBytesRemaining = 0 then .start else .data) := by
  unfold enterData; simp only []; split
  · obtain ⟨out, ho, he, -, -, hc⟩ := frameEnd_out { l with conn := { l.conn with maskCounter := 0, ctrlLen := 0 } }
    have hk := frameEnd_keeps { l with conn := { l.conn with maskCounter := 0, ctrlLen := 0 } }
    exact ⟨⟨out, ho, he, hc⟩, by rw [frameEnd_conn], ⟨hk.1, hk.2, hk.3, hk.4, hk.5⟩, by rw [frameEnd_conn]⟩
  · exact ⟨⟨[], by simp, .inl rfl, by simp⟩, rfl, ⟨rfl, rfl, rfl, rfl, id⟩, rfl⟩

theorem headerLengthDone_enters (l : Link) :
    Enters l (headerLengthDone l)
      (if maskOf l.conn.hdrByte1 then .key else if l.conn.payloadBytesRemaining = 0 then .start else .data) := by
  unfold headerLengthDone
  split
  · exact ⟨⟨[], by simp, .inl rfl, by simp⟩, rfl, ⟨rfl, rfl, rfl, rfl, id⟩, rfl⟩
  · exact enterData_enters l

/-! ### One byte -/

/-- The edges of the transition table (R130). -/
def transitions : List (DecodeStep × DecodeStep) :=
  [(.start, .length), (.length, .shortLength), (.length, .extendedLength), (.length, .key), (.length, .data),
    (.length, .start), (.shortLength, .key), (.shortLength, .data), (.extendedLength, .key), (.extendedLength, .data),
    (.key, .data), (.key, .start), (.data, .start)]

/-- All that a step rule can do: raise one violation from a header step, or go on without one. -/
inductive StepOut (l l' : Link) : Prop where
  | violation (v : Violation) (h : l' = raiseViolation v l)
      (hs : l.conn.decodeStep ∈ [DecodeStep.start, .length, .shortLength, .extendedLength])
  | goesOn (out : List Output) (ho : l'.output = l.output ++ out) (he : l'.conn.errorCode = l.conn.errorCode)
      (hout : EndOut out ∨ (∃ u bin, out = [.dlvData u bin]) ∨ (∃ u bin fs, out = [.dlvData u bin, .dlvEnd fs bin]))
      (hk : l.conn.Keeps l'.conn)
      (hstep : (l.conn.decodeStep, l'.conn.decodeStep) ∈ transitions ∨
        l.conn.decodeStep = l'.conn.decodeStep ∧
          l.conn.decodeStep ∈ [DecodeStep.shortLength, .extendedLength, .key, .data])
      (hc : l.conn.closeSent = true → ∀ o ∈ out, isCloseFrame o = false)

theorem StepOut.quiet {l l' : Link} (ho : l'.output = l.output) (he : l'.conn.errorCode = l.conn.errorCode)
    (hk : l.conn.Keeps l'.conn)
    (hstep : (l.conn.decodeStep, l'.conn.decodeStep) ∈ transitions ∨
      l.conn.decodeStep = l'.conn.decodeStep ∧
        l.conn.decodeStep ∈ [DecodeStep.shortLength, .extendedLength, .key, .data]) : StepOut l l' :=
  .goesOn [] (by simp [ho]) he (.inl (.inl rfl)) hk hstep (by simp)

theorem lastLengthByte_out {least : Nat} (hl : 0 < least) (b : Byte) (l : Link)
    (hs : l.conn.decodeStep = .shortLength ∨ l.conn.decodeStep = .extendedLength) :
    StepOut l (lastLengthByte least b l) := by
  unfold lastLengthByte; simp only []
  split
  · exact .violation _ rfl (by rcases hs with hs | hs <;> simp [hs])
  · rename_i hv
    obtain ⟨⟨out, ho, h1, h2⟩, h3, h4, h5⟩ := headerLengthDone_enters
      { l with
        conn :=
          { l.conn with
            hdrExtLen := shiftIn l.conn.hdrExtLen b
            payloadBytesRemaining := shiftIn l.conn.hdrExtLen b } }
    refine .goesOn out ho h3 (.inl h1) ⟨h4.1, h4.2, h4.3, h4.4, h4.5⟩ (.inl ?_) h2
    have hnz : ¬shiftIn l.conn.hdrExtLen b = 0 := by
      intro h0; rw [h0] at hv; simp only [extLenViolation] at hv; rw [if_pos (by simpa using hl)] at hv; cases hv
    rw [h5]
    simp only [hnz, if_false]
    rcases hs with hs | hs <;> rw [hs] <;> split <;> decide

/-- What a byte of DATA does (R145, R146). -/
theorem dataRule_out (b : Byte) (l : Link) (hs : l.conn.decodeStep = .data) : StepOut l (dataRule b l) := by
  rw [dataRule_eq]
  cases hc : isControl (opcodeOf l.conn.hdrByte0)
  · rw [payloadByte_data hc]
    split
    · obtain ⟨out, ho, -, h2, h3, h4⟩ := frameEnd_out
        { l with conn := countByte l.conn, output := l.output ++ [.dlvData (unmaskByte b l.conn) (binFlag l.conn)] }
      have hd := frameEnd_data_output
        { l with conn := countByte l.conn, output := l.output ++ [.dlvData (unmaskByte b l.conn) (binFlag l.conn)] }
      have hk := frameEnd_keeps
        { l with conn := countByte l.conn, output := l.output ++ [.dlvData (unmaskByte b l.conn) (binFlag l.conn)] }
      refine .goesOn (.dlvData (unmaskByte b l.conn) (binFlag l.conn) :: out) (by rw [ho]; simp)
        (by rw [frameEnd_conn]; rfl) (.inr ?_) ⟨hk.1, hk.2, hk.3, hk.4, hk.5⟩ (.inl ?_) ?_
      · rcases opcode_classes (opcodeOf l.conn.hdrByte0) with h' | h' | h'
        · have h := hd h'.1
          rw [ho] at h
          have := List.append_cancel_left h
          subst this
          exact .inr ⟨_, _, _, rfl⟩
        · simp [hc] at h'
        · rw [h3 h'.2.2]; exact .inl ⟨_, _, rfl⟩
      · rw [frameEnd_conn, hs]; simp [transitions]
      · intro h o ho'
        rcases List.mem_cons.mp ho' with rfl | ho'
        · rfl
        · exact h4 h o ho'
    · exact .goesOn [_] rfl rfl (.inr (.inl ⟨_, _, rfl⟩)) ⟨rfl, rfl, rfl, rfl, id⟩
        (.inr ⟨rfl, by rw [hs]; decide⟩) (by simp [isCloseFrame])
  · rw [payloadByte_control hc]
    split
    · obtain ⟨out, ho, h1, -, -, h4⟩ := frameEnd_out
        { l with conn := storeCtrl (unmaskByte b l.conn) (countByte l.conn) }
      have hk := frameEnd_keeps { l with conn := storeCtrl (unmaskByte b l.conn) (countByte l.conn) }
      exact .goesOn out ho (by rw [frameEnd_conn]; rfl) (.inl h1) ⟨hk.1, hk.2, hk.3, hk.4, hk.5⟩
        (.inl (by rw [frameEnd_conn, hs]; simp [transitions])) h4
    · exact .quiet rfl rfl ⟨rfl, rfl, rfl, rfl, id⟩ (.inr ⟨rfl, by rw [hs]; decide⟩)

/-- All that the step rule of the current step can do (R130 to R147). -/
theorem stepRule_out (b : Byte) (l : Link) (hr : ruleApplies l.conn = true) : StepOut l (stepRule b l) := by
  cases hs : l.conn.decodeStep
  · rw [stepRule_start hs, startRule]
    split
    · exact .violation _ rfl (by simp [hs])
    · exact .quiet rfl rfl ⟨rfl, rfl, rfl, rfl, id⟩ (.inl (by rw [hs]; simp [transitions]))
  · rw [stepRule_length hs, lengthRule]
    split
    · exact .violation _ rfl (by simp [hs])
    · simp only []; split
      · exact .quiet rfl rfl ⟨rfl, rfl, rfl, rfl, id⟩ (.inl (by rw [hs]; simp [transitions]))
      · split
        · exact .quiet rfl rfl ⟨rfl, rfl, rfl, rfl, id⟩ (.inl (by rw [hs]; simp [transitions]))
        · obtain ⟨⟨out, ho, h1, h2⟩, h3, h4, h5⟩ := headerLengthDone_enters
            { l with
              conn :=
                { l.conn with
                  hdrByte1 := b
                  hdrExtLen := 0
                  fieldIdx := 0
                  payloadBytesRemaining := (len7Of b).zeroExtend 64 } }
          refine .goesOn out ho h3 (.inl h1) ⟨h4.1, h4.2, h4.3, h4.4, h4.5⟩ (.inl ?_) h2
          rw [h5, hs]; split
          · decide
          · split <;> decide
  · rw [stepRule_shortLength hs, shortLengthRule]
    split
    · exact .quiet rfl rfl ⟨rfl, rfl, rfl, rfl, id⟩ (.inr ⟨rfl, by rw [hs]; decide⟩)
    · exact lastLengthByte_out (by decide) b l (.inl hs)
  · rw [stepRule_extendedLength hs, extendedLengthRule]
    split
    · exact lastLengthByte_out (by decide) b l (.inr hs)
    · exact .quiet rfl rfl ⟨rfl, rfl, rfl, rfl, id⟩ (.inr ⟨rfl, by rw [hs]; decide⟩)
  · rw [stepRule_key hs, keyRule]
    simp only []
    split
    · obtain ⟨⟨out, ho, h1, h2⟩, h3, h4, h5⟩ := enterData_enters
        { l with conn := { l.conn with hdrKey := l.conn.hdrKey.setIfInBounds l.conn.fieldIdx.toNat b } }
      exact .goesOn out ho h3 (.inl h1) ⟨h4.1, h4.2, h4.3, h4.4, h4.5⟩ (.inl (by rw [h5, hs]; split <;> decide)) h2
    · exact .quiet rfl rfl ⟨rfl, rfl, rfl, rfl, id⟩ (.inr ⟨rfl, by rw [hs]; decide⟩)
  · rw [stepRule_data hs]; exact dataRule_out b l hs
  · simp [ruleApplies, hs] at hr

/-! ### A byte sequence -/

/-- What any number of bytes can do to the link. -/
structure SeqOut (l l' : Link) : Prop where
  output : ∃ out, l'.output = l.output ++ out ∧ (l.conn.closeSent = true → ∀ o ∈ out, isCloseFrame o = false)
  keeps : l.conn.Keeps l'.conn
  errorCode : l.conn.errorCode ≠ 0 → l'.conn.errorCode = l.conn.errorCode

theorem SeqOut.trans {a b c : Link} (h1 : SeqOut a b) (h2 : SeqOut b c) : SeqOut a c := by
  obtain ⟨⟨o1, e1, n1⟩, k1, r1⟩ := h1
  obtain ⟨⟨o2, e2, n2⟩, k2, r2⟩ := h2
  refine ⟨⟨o1 ++ o2, by rw [e2, e1, List.append_assoc], fun h o ho => ?_⟩, k1.trans k2, fun h => ?_⟩
  · rcases List.mem_append.mp ho with ho | ho
    · exact n1 h o ho
    · exact n2 (k1.closeSent h) o ho
  · have := r1 h
    exact (r2 (by rw [this]; exact h)).trans this

theorem StepOut.seqOut {l l' : Link} (he : l.conn.errorCode = 0) (h : StepOut l l') : SeqOut l l' := by
  cases h with
  | violation v h hs =>
    subst h
    exact ⟨⟨_, rfl, by simp [isCloseFrame]⟩, ⟨rfl, rfl, rfl, rfl, id⟩, fun h => absurd he h⟩
  | goesOn out ho _ _ hk _ hc => exact ⟨⟨out, ho, hc⟩, hk, fun h => absurd he h⟩

theorem rxBytes_seqOut {bs : List Byte} {l l' : Link} (h : rxBytes bs l = .next l') : SeqOut l l' := by
  induction bs generalizing l with
  | nil => cases h; exact ⟨⟨[], by simp⟩, .rfl' _, fun _ => rfl⟩
  | cons b bs ih =>
    rcases rxByte_cases b l with ⟨h1, h2⟩ | ⟨h1, h2, h3⟩ | ⟨h1, h2, h3⟩
    · rw [rxBytes_cons h2] at h; exact ih h
    · rw [rxBytes_cons h3] at h; exact ((stepRule_out b l h2).seqOut h1).trans (ih h)
    · rw [rxBytes, h3] at h; cases h

/-! ### Instructions and steps -/

/-- Every instruction receives bytes, sends for the host, is INIT, or is STATUS. -/
theorem exec_kinds (i : Instr) :
    (∃ bs, receivedBytes i = some bs ∧ ∀ s, exec i s = receive bs s) ∨ isOutbound i = true ∨ isInit i = true ∨
      i = .status := by
  cases i <;>
    first
    | exact .inl ⟨_, rfl, fun _ => rfl⟩
    | exact .inr (.inl rfl)
    | exact .inr (.inr (.inl rfl))
    | exact .inr (.inr (.inr rfl))

/-- A step is idle, runs one instruction on the rest of the inbox, or refuses. -/
theorem step_cases (s : State) :
    step s = .next s ∨ (∃ i q, step s = exec i { s with inbox := q }) ∨ (∃ r, step s = .refused r) := by
  unfold step
  split
  · exact .inl rfl
  · exact .inr (.inl ⟨_, _, rfl⟩)
  · exact .inr (.inr ⟨_, rfl⟩)

end Sys2Proof.Machine
end

