-- ==== Sys2Proof/Laws/Draws.lean ====
section
/-!
SUPPORT. The mask-key source (R226): everything the decoder does takes one key for each frame it puts on TX when the role
is CLIENT, and none when it is SERVER.
-/

namespace Sys2Proof.Machine

/-- Between these two links as many keys left the source as frames reached TX, first those that were ready and then free
ones; none for a SERVER. -/
structure Drew (l l' : Link) : Prop where
  role : l'.conn.role = l.conn.role
  source : ∃ out, l'.output = l.output ++ out ∧
    (l.conn.role = .server → l'.keys = l.keys ∧ l'.draws = l.draws) ∧
      (l.conn.role = .client → l'.keys = l.keys.drop (out.countP isTx) ∧
        l'.draws = l.draws + (out.countP isTx - l.keys.length))

/-- What emits no frame and leaves the key source alone. -/
theorem Drew.quiet {l l' : Link} (out : List Output) (ho : l'.output = l.output ++ out) (hn : out.countP isTx = 0)
    (hr : l'.conn.role = l.conn.role) (hk : l'.keys = l.keys) (hd : l'.draws = l.draws) : Drew l l' :=
  ⟨hr, out, ho, fun _ => ⟨hk, hd⟩, fun _ => by rw [hn]; exact ⟨hk, by rw [hd]; simp⟩⟩

/-- A change of the Connection that keeps its role. -/
theorem Drew.conn (l : Link) {c : Conn} (h : c.role = l.conn.role) : Drew l { l with conn := c } :=
  .quiet [] (by simp) rfl h rfl rfl

theorem Drew.trans {a b c : Link} (h : Drew a b) (h' : Drew b c) : Drew a c := by
  obtain ⟨r, o, e, s, k⟩ := h
  obtain ⟨r', o', e', s', k'⟩ := h'
  rw [r] at r' s' k'
  refine ⟨r', o ++ o', by rw [e', e, List.append_assoc], fun hr => ?_, fun hr => ?_⟩
  · exact ⟨(s' hr).1.trans (s hr).1, (s' hr).2.trans (s hr).2⟩
  · rw [List.countP_append, (k' hr).1, (k' hr).2, (k hr).1, (k hr).2, List.drop_drop, List.length_drop]
    exact ⟨rfl, by omega⟩

/-- The same, before what comes next. -/
theorem Drew.onConn {l l₀ l' : Link} (h : Drew l₀ l') (hl : l₀ = { l with conn := l₀.conn })
    (hr : l₀.conn.role = l.conn.role) : Drew l l' := by
  rw [hl] at h; exact (Drew.conn l hr).trans h

theorem emit_drew (o : Output) (h : isTx o = false) (l : Link) : Drew l (emit o l) :=
  .quiet [o] rfl (by simp [h]) rfl rfl rfl

theorem sendFrame_drew (fin : Bool) (op : BitVec 4) (p : List Byte) (l : Link) : Drew l (sendFrame fin op p l) := by
  rw [sendFrame_eq]
  refine ⟨rfl, _, rfl, fun hr => ?_, fun hr => ?_⟩
  · simp [drawFor, hr]
  · simp only [List.countP_cons, List.countP_nil, isTx, if_true, drawFor, hr, drawKey]
    cases hk : l.keys <;> simp

theorem setStep_drew (d : DecodeStep) (l : Link) : Drew l (setStep d l) := .conn l rfl

/-! ### END (R146) -/

theorem onClose_drew (l : Link) : Drew l (onClose l) := by
  unfold onClose; simp only []; split
  · exact emit_drew _ rfl l
  · exact (sendFrame_drew _ _ _ l).trans ((emit_drew _ rfl _).onConn rfl rfl)

theorem onPong_drew (l : Link) : Drew l (onPong l) := by
  unfold onPong; split
  · exact emit_drew _ rfl l
  · exact .conn l rfl

theorem endAction_drew (l : Link) : Drew l (endAction l) := by
  unfold endAction
  split_ifs
  · exact emit_drew _ rfl l
  · exact onClose_drew l
  · exact sendFrame_drew _ _ _ l
  · exact onPong_drew l
  · exact .conn l rfl

theorem frameEnd_drew (l : Link) : Drew l (frameEnd l) :=
  ((setStep_drew .endStep l).trans (endAction_drew _)).trans (setStep_drew .start _)

/-! ### Bytes (R252, R253) -/

theorem enterData_drew (l : Link) : Drew l (enterData l) := by
  unfold enterData; simp only []; split
  · exact (frameEnd_drew _).onConn rfl rfl
  · exact .conn l rfl

theorem headerLengthDone_drew (l : Link) : Drew l (headerLengthDone l) := by
  unfold headerLengthDone; split
  · exact .conn l rfl
  · exact enterData_drew l

theorem raiseViolation_drew (v : Violation) (l : Link) : Drew l (raiseViolation v l) :=
  .quiet [.evError (violationCode v)] rfl rfl rfl rfl rfl

theorem lastLengthByte_drew (least : Nat) (b : Byte) (l : Link) : Drew l (lastLengthByte least b l) := by
  unfold lastLengthByte; simp only []; split
  · exact raiseViolation_drew _ l
  · exact (headerLengthDone_drew _).onConn rfl rfl

theorem takePayload_drew (u : Byte) (l : Link) : Drew l (takePayload u l) := by
  unfold takePayload; split
  · exact .conn l rfl
  · exact emit_drew _ rfl l

theorem dataRule_drew (b : Byte) (l : Link) : Drew l (dataRule b l) := by
  have h : Drew l (takePayload (unmaskByte b l.conn) { l with conn := countByte l.conn }) :=
    (takePayload_drew _ _).onConn rfl rfl
  unfold dataRule; simp only []; split
  · exact h.trans (frameEnd_drew _)
  · exact h

theorem lengthRule_drew (b : Byte) (l : Link) : Drew l (lengthRule b l) := by
  unfold lengthRule; split
  · exact raiseViolation_drew _ l
  · simp only []; split_ifs
    · exact .conn l rfl
    · exact .conn l rfl
    · exact (headerLengthDone_drew _).onConn rfl rfl

theorem stepRule_drew (b : Byte) (l : Link) : Drew l (stepRule b l) := by
  unfold stepRule; split
  · unfold startRule; split
    · exact raiseViolation_drew _ l
    · exact .conn l rfl
  · exact lengthRule_drew b l
  · unfold shortLengthRule; split
    · exact .conn l rfl
    · exact lastLengthByte_drew _ b l
  · unfold extendedLengthRule; split
    · exact lastLengthByte_drew _ b l
    · exact .conn l rfl
  · unfold keyRule; simp only []; split
    · exact (enterData_drew _).onConn rfl rfl
    · exact .conn l rfl
  · exact dataRule_drew b l
  · exact .conn l rfl

/-- Any number of received bytes. -/
theorem rxBytes_drew {bs : List Byte} {l l' : Link} (h : rxBytes bs l = .next l') : Drew l l' := by
  induction bs generalizing l with
  | nil => cases h; exact .conn _ rfl
  | cons b bs ih =>
    rcases rxByte_cases b l with ⟨-, h2⟩ | ⟨-, -, h3⟩ | ⟨-, -, h3⟩
    · rw [rxBytes_cons h2] at h; exact ih h
    · rw [rxBytes_cons h3] at h; exact (stepRule_drew b l).trans (ih h)
    · rw [rxBytes, h3] at h; cases h

end Sys2Proof.Machine
end

