-- ==== Sys2Proof/Laws/Invariant.lean ====
section
/-!
SUPPORT. The Connection's invariants, kept by every step rule and every byte sequence (R36 to R40).
-/

namespace Sys2Proof.Machine

/-- Under the invariants every step has its rule (R36, R39, R40). -/
theorem ruleApplies_of_inv {c : Conn} (h : c.Inv) : ruleApplies c = true := by
  unfold ruleApplies
  split <;> rename_i hs
  · rfl
  · rfl
  · rfl
  · rfl
  · exact decide_eq_true (h.key hs).1 |> fun x => by simpa [BitVec.le_def] using x
  · obtain ⟨h1, h2, -⟩ := h.data hs
    have : c.payloadBytesRemaining ≠ 0 := by intro h0; rw [h0] at h1; simp at h1
    cases hc : isControl (opcodeOf c.hdrByte0)
    · simp; exact this
    · have hh := h2 hc; simp only [Config.ctrlMax] at hh
      simp only [Config.ctrlMax, Bool.and_eq_true, bne_iff_ne, Bool.or_eq_true]
      exact ⟨this, .inr (decide_eq_true (by omega))⟩
  · exact absurd hs h.notAtEnd

/-- The invariants that hold at every step. -/
structure Conn.Global (c : Conn) : Prop where
  ctrlLenFits : c.ctrlLen.toNat ≤ Config.ctrlMax
  errorCodeListed : c.errorCode.toNat ≤ 5
  noMaximumIsZero : c.maxPayloadEn = false → c.maxPayloadBytes = 0
  lastOpcodeListed : c.lastOpcode.toNat ≤ 2

theorem inv_at_start {c : Conn} (h : c.Global) (hs : c.decodeStep = .start) : c.Inv := by
  have n : ∀ {d : DecodeStep} {P : Prop}, d ≠ .start → c.decodeStep = d → P :=
    fun h h' => absurd (h'.symm.trans hs) h
  exact
    ⟨by rw [hs]; decide, h.1, h.2, h.3, h.4, fun h => absurd hs h, fun h => absurd hs h, fun h => absurd hs h,
      fun h => n (by decide) h, fun h => n (by decide) h, fun h => n (by decide) h, fun h => n (by decide) h⟩

theorem raiseViolation_inv {l : Link} (h : l.conn.Inv) (v) : (raiseViolation v l).conn.Inv := by
  obtain ⟨h1, h2, h3, h4, h5, h6, h7, h8, h9, h10, h11, h12⟩ := h
  exact ⟨h1, h2, by cases v <;> simp [violationCode], h4, h5, h6, h7, h8, h9, h10, h11, h12⟩

theorem frameEnd_inv {l : Link} (h : l.conn.Global) : (frameEnd l).conn.Inv := by
  rw [frameEnd_conn]
  exact inv_at_start ⟨h.1, h.2, h.3, h.4⟩ rfl

/-- What holds when the header is complete (R142). -/
structure Conn.HeaderDone (c : Conn) : Prop where
  glob : c.Global
  op : isReserved (opcodeOf c.hdrByte0) = false
  last : opcodeOf c.hdrByte0 = 0x1 ∨ opcodeOf c.hdrByte0 = 0x2 → c.lastOpcode = opcodeOf c.hdrByte0
  mask : maskOf c.hdrByte1 = expectedMask c.role
  ctl : isControl (opcodeOf c.hdrByte0) = true → c.payloadBytesRemaining.toNat ≤ Config.ctrlMax
  max : exceeds c c.payloadBytesRemaining = false

theorem enterData_inv {l : Link} (h : l.conn.HeaderDone) : (enterData l).conn.Inv := by
  unfold enterData; simp only []; split
  · exact frameEnd_inv ⟨by simp, h.glob.2, h.glob.3, h.glob.4⟩
  · rename_i hn
    have hpos : 1 ≤ l.conn.payloadBytesRemaining.toNat := by
      by_contra hh; exact hn (BitVec.eq_of_toNat_eq (by simp; omega))
    constructor
    case data =>
      intro _
      refine ⟨hpos, fun hc => ?_, h.max, fun _ => rfl⟩
      have := h.ctl hc
      simpa [setStep] using this
    all_goals simp [setStep]
    · exact h.glob.2
    · exact h.glob.3
    · exact h.glob.4
    · exact h.op
    · exact h.last
    · exact h.mask

theorem headerLengthDone_inv {l : Link} (h : l.conn.HeaderDone) : (headerLengthDone l).conn.Inv := by
  unfold headerLengthDone; split
  · rename_i hm
    constructor
    case key =>
      intro _
      exact ⟨by simp, hm, h.ctl, h.max⟩
    all_goals simp
    · exact h.glob.1
    · exact h.glob.2
    · exact h.glob.3
    · exact h.glob.4
    · exact h.op
    · exact h.last
    · exact h.mask
  · exact enterData_inv h

theorem lastLengthByte_inv {least : Nat} (b : Byte) (l : Link) (h : l.conn.Inv)
    (hs : l.conn.decodeStep = .shortLength ∨ l.conn.decodeStep = .extendedLength) :
    (lastLengthByte least b l).conn.Inv := by
  unfold lastLengthByte; simp only []
  split
  · exact raiseViolation_inv h _
  · rename_i hv
    have hn1 : l.conn.decodeStep ≠ .start := by rcases hs with h | h <;> simp [h]
    have hn2 : l.conn.decodeStep ≠ .length := by rcases hs with h | h <;> simp [h]
    have hctl : isControl (opcodeOf l.conn.hdrByte0) = false := by
      rcases hs with hs | hs
      · exact (h.shortLength hs).2.2.2
      · exact (h.extendedLength hs).2.2
    have hex : exceeds l.conn (shiftIn l.conn.hdrExtLen b) = false := by
      unfold extLenViolation at hv
      split at hv
      · cases hv
      · split at hv
        · cases hv
        · rename_i h; simpa using h
    refine headerLengthDone_inv
      ⟨⟨h.2, h.3, h.4, h.5⟩, h.opcodeDefined hn1, h.lastOpcodeIsOpcode hn1, h.maskAgrees hn1 hn2, ?_, hex⟩
    intro hc
    have hc : isControl (opcodeOf l.conn.hdrByte0) = true := hc
    rw [hctl] at hc; cases hc

theorem shiftIn_bound (e : BitVec 64) (b : Byte) (n : Nat) (h : e.toNat < 256 ^ n) :
    (shiftIn e b).toNat < 256 ^ (n + 1) := by
  rw [shiftIn_toNat]
  have hb := b.isLt
  have := Nat.mod_le e.toNat (2^56)
  rw [Nat.pow_succ]; omega

/-- Every step rule keeps the invariants. -/
theorem stepRule_inv (b : Byte) (l : Link) (h : l.conn.Inv) : (stepRule b l).conn.Inv := by
  have hr := ruleApplies_of_inv h
  cases hs : l.conn.decodeStep
  · rw [stepRule_start hs, startRule]
    split
    · exact raiseViolation_inv h _
    · rename_i hres
      constructor <;> simp
      · exact h.2
      · exact h.3
      · exact h.4
      · unfold nextLastOpcode; split
        · rename_i hh; rcases hh with hh | hh <;> rw [hh] <;> decide
        · exact h.5
      · simpa using hres
      · intro hh; simp [nextLastOpcode, hh]
  · rw [stepRule_length hs, lengthRule]
    split
    · exact raiseViolation_inv h _
    · rename_i hv
      have hm : maskOf b = expectedMask l.conn.role := by
        by_contra hh; simp [lengthViolation, hh] at hv
      have hc : isControl (opcodeOf l.conn.hdrByte0) = true → (len7Of b).toNat ≤ 125 := by
        intro hc; by_contra hh
        have : 126 ≤ (len7Of b).toNat := by omega
        simp [lengthViolation, hm, hc, this] at hv
      have hx : (len7Of b).toNat ≤ 125 → exceeds l.conn ((len7Of b).zeroExtend 64) = false := by
        intro hle
        cases he : exceeds l.conn ((len7Of b).zeroExtend 64)
        · rfl
        · have : ¬ 126 ≤ (len7Of b).toNat := by omega
          simp only [lengthViolation, hm, this, hle, he] at hv
          simp at hv
      have hop := h.opcodeDefined (by simp [hs])
      have hla := h.lastOpcodeIsOpcode (by simp [hs])
      simp only []; split
      · rename_i h6
        constructor
        case shortLength =>
          intro _
          refine ⟨by simp, by simp, h6, ?_⟩
          cases hcc : isControl (opcodeOf l.conn.hdrByte0)
          · simp
          · have := hc hcc; rw [h6] at this; exact absurd this (by decide)
        all_goals simp
        exacts [h.2, h.3, h.4, h.5, hop, hla, hm]
      · split
        · rename_i h7
          constructor
          case extendedLength =>
            intro _
            refine ⟨by simp, h7, ?_⟩
            cases hcc : isControl (opcodeOf l.conn.hdrByte0)
            · simp
            · have := hc hcc; rw [h7] at this; exact absurd this (by decide)
          all_goals simp
          exacts [h.2, h.3, h.4, h.5, hop, hla, hm]
        · rename_i h6 h7
          have hle : (len7Of b).toNat ≤ 125 := by
            have := (len7Of b).isLt
            have : (len7Of b).toNat ≠ 126 := fun h => h6 (BitVec.eq_of_toNat_eq h)
            have : (len7Of b).toNat ≠ 127 := fun h => h7 (BitVec.eq_of_toNat_eq h)
            omega
          exact headerLengthDone_inv
            ⟨⟨h.2, h.3, h.4, h.5⟩, hop, hla, hm, fun h' => by have := hc h'; simp [Config.ctrlMax]; omega, hx hle⟩
  · rw [stepRule_shortLength hs, shortLengthRule]
    split
    · rename_i hi
      obtain ⟨a1, a2, a3, a4⟩ := h.shortLength hs
      constructor
      case shortLength =>
        intro _
        refine ⟨by simp [moreLengthByte, hi], ?_, a3, a4⟩
        have hf : (moreLengthByte b l).conn.fieldIdx = 1 := by simp [moreLengthByte, hi]
        rw [hf]
        exact shiftIn_bound _ _ 0 (by simpa [hi] using a2)
      case maskAgrees => exact fun _ _ => h.maskAgrees (by simp [hs]) (by simp [hs])
      all_goals simp [moreLengthByte, hs]
      exacts [h.2, h.3, h.4, h.5, h.opcodeDefined (by simp [hs]), h.lastOpcodeIsOpcode (by simp [hs])]
    · exact lastLengthByte_inv b l h (.inl hs)
  · rw [stepRule_extendedLength hs, extendedLengthRule]
    split
    · exact lastLengthByte_inv b l h (.inr hs)
    · rename_i hi
      obtain ⟨a2, a3, a4⟩ := h.extendedLength hs
      constructor
      case extendedLength =>
        intro _
        refine ⟨?_, a3, a4⟩
        have hf : (moreLengthByte b l).conn.fieldIdx.toNat = l.conn.fieldIdx.toNat + 1 := by
          have : l.conn.fieldIdx.toNat ≠ 7 := fun h => hi (BitVec.eq_of_toNat_eq h)
          have := l.conn.fieldIdx.isLt
          show (l.conn.fieldIdx + 1).toNat = _
          rw [BitVec.toNat_add]; simp; omega
        rw [hf]
        exact shiftIn_bound _ _ _ a2
      case maskAgrees => exact fun _ _ => h.maskAgrees (by simp [hs]) (by simp [hs])
      all_goals simp [moreLengthByte, hs]
      exacts [h.2, h.3, h.4, h.5, h.opcodeDefined (by simp [hs]), h.lastOpcodeIsOpcode (by simp [hs])]
  · rw [stepRule_key hs, keyRule]
    obtain ⟨a1, a2, a3, a4⟩ := h.key hs
    have hop := h.opcodeDefined (by simp [hs])
    have hla := h.lastOpcodeIsOpcode (by simp [hs])
    have hm := h.maskAgrees (by simp [hs]) (by simp [hs])
    simp only []
    split
    · exact enterData_inv ⟨⟨h.2, h.3, h.4, h.5⟩, hop, hla, hm, a3, a4⟩
    · rename_i hi
      constructor
      case key =>
        intro _
        refine ⟨?_, a2, a3, a4⟩
        have : l.conn.fieldIdx.toNat ≠ 3 := fun h => hi (BitVec.eq_of_toNat_eq h)
        show (l.conn.fieldIdx + 1).toNat ≤ 3
        rw [BitVec.toNat_add]; simp; omega
      all_goals simp [hs]
      exacts [h.2, h.3, h.4, h.5, hop, hla, hm]
  · rw [stepRule_data hs, dataRule_eq]
    obtain ⟨a1, a2, a3, a4⟩ := h.data hs
    have hop := h.opcodeDefined (by simp [hs])
    have hla := h.lastOpcodeIsOpcode (by simp [hs])
    have hm := h.maskAgrees (by simp [hs]) (by simp [hs])
    have hrem : (l.conn.payloadBytesRemaining - 1).toNat = l.conn.payloadBytesRemaining.toNat - 1 := by bv_omega
    have hex : exceeds l.conn (l.conn.payloadBytesRemaining - 1) = false := by
      simp only [exceeds, Bool.and_eq_false_iff, decide_eq_false_iff_not, BitVec.lt_def] at a3 ⊢
      rcases a3 with h | h
      · exact .inl h
      · right; omega
    have hmc : maskOf l.conn.hdrByte1 = false → (countByte l.conn).maskCounter = 0 := by
      intro h; simp [countByte, h, a4 h]
    cases hc : isControl (opcodeOf l.conn.hdrByte0)
    · rw [payloadByte_data hc]
      split
      · exact frameEnd_inv ⟨h.2, h.3, h.4, h.5⟩
      · rename_i hnz
        have hp : 1 ≤ (l.conn.payloadBytesRemaining - 1).toNat := by
          by_contra hh; exact hnz (BitVec.eq_of_toNat_eq (by simp; omega))
        constructor
        case data =>
          intro _
          refine ⟨hp, fun h => ?_, hex, hmc⟩
          exact absurd (hc.symm.trans h) (by decide)
        case maskAgrees => exact fun _ _ => hm
        case opcodeDefined => exact fun _ => hop
        case lastOpcodeIsOpcode => exact fun _ => hla
        all_goals simp [hs]
        exacts [h.2, h.3, h.4, h.5]
    · rw [payloadByte_control hc]
      have hcl := a2 hc
      simp only [Config.ctrlMax] at hcl
      have hinc : (l.conn.ctrlLen + 1).toNat = l.conn.ctrlLen.toNat + 1 := by
        rw [BitVec.toNat_add]; simp; omega
      have hfit : (l.conn.ctrlLen + 1).toNat ≤ 125 := by omega
      split
      · exact frameEnd_inv ⟨hfit, h.3, h.4, h.5⟩
      · rename_i hnz
        have hp : 1 ≤ (l.conn.payloadBytesRemaining - 1).toNat := by
          by_contra hh; exact hnz (BitVec.eq_of_toNat_eq (by simp; omega))
        constructor
        case data =>
          intro _
          refine ⟨hp, fun h => ?_, hex, hmc⟩
          show (l.conn.ctrlLen + 1).toNat + (l.conn.payloadBytesRemaining - 1).toNat ≤ 125
          omega
        case maskAgrees => exact fun _ _ => hm
        case opcodeDefined => exact fun _ => hop
        case lastOpcodeIsOpcode => exact fun _ => hla
        case ctrlLenFits => exact hfit
        all_goals simp [hs]
        exacts [h.3, h.4, h.5]
  · exact absurd hs h.notAtEnd

/-- From the invariants every byte sequence is received whole and keeps them. -/
theorem rxBytes_inv (bs : List Byte) (l : Link) (h : l.conn.Inv) :
    ∃ l', rxBytes bs l = .next l' ∧ l'.conn.Inv := by
  induction bs generalizing l with
  | nil => exact ⟨l, rfl, h⟩
  | cons b bs ih =>
    rcases rxByte_cases b l with ⟨h1, h2⟩ | ⟨h1, h2, h3⟩ | ⟨h1, h2, h3⟩
    · rw [rxBytes_cons h2]; exact ih l h
    · rw [rxBytes_cons h3]; exact ih _ (stepRule_inv b l h)
    · rw [ruleApplies_of_inv h] at h2; cases h2

end Sys2Proof.Machine
end

