-- ==== Sys2Proof/Laws/PerInstr.lean ====
section
/-!
SUPPORT. A statement about every instruction as syntax, one lemma per constructor: its words carry the opcode of its
row of the table (30_encoding.md R95) or its command code (44_commands.md R262), and never both.
-/

namespace Sys2Proof.Laws

theorem frame_head (op : BitVec 4) (f : Frame) : (f.bytes op).head?.map opcodeOf = some op := by
  simp [Frame.bytes, wireFrame]

theorem reserved_head (op : BitVec 4) (h : Head) : (h.bytes op).head?.map opcodeOf = some op := by
  simp [Head.bytes]

end Sys2Proof.Laws

namespace Sys2Proof.Laws.EncodedRow

/-- The encoding carries the row's number: the low four bits of byte 0, or the command code. -/
def Statement (i : Instr) : Prop :=
  match encode i with
  | .wire bs => (bs.head?.map opcodeOf) = i.wireOpcode ∧ i.wireOpcode.isSome = true ∧ i.commandCode = none
  | .command w => some w.code = i.commandCode ∧ i.wireOpcode = none

theorem cont (f : Frame) : Statement (.cont f) := ⟨frame_head _ f, rfl, rfl⟩

theorem text (f : Frame) : Statement (.text f) := ⟨frame_head _ f, rfl, rfl⟩

theorem bin (f : Frame) : Statement (.bin f) := ⟨frame_head _ f, rfl, rfl⟩

theorem rsvd3 (h : Head) : Statement (.rsvd3 h) := ⟨reserved_head _ h, rfl, rfl⟩

theorem rsvd4 (h : Head) : Statement (.rsvd4 h) := ⟨reserved_head _ h, rfl, rfl⟩

theorem rsvd5 (h : Head) : Statement (.rsvd5 h) := ⟨reserved_head _ h, rfl, rfl⟩

theorem rsvd6 (h : Head) : Statement (.rsvd6 h) := ⟨reserved_head _ h, rfl, rfl⟩

theorem rsvd7 (h : Head) : Statement (.rsvd7 h) := ⟨reserved_head _ h, rfl, rfl⟩

theorem close (f : Frame) : Statement (.close f) := ⟨frame_head _ f, rfl, rfl⟩

theorem ping (f : Frame) : Statement (.ping f) := ⟨frame_head _ f, rfl, rfl⟩

theorem pong (f : Frame) : Statement (.pong f) := ⟨frame_head _ f, rfl, rfl⟩

theorem rsvdB (h : Head) : Statement (.rsvdB h) := ⟨reserved_head _ h, rfl, rfl⟩

theorem rsvdC (h : Head) : Statement (.rsvdC h) := ⟨reserved_head _ h, rfl, rfl⟩

theorem rsvdD (h : Head) : Statement (.rsvdD h) := ⟨reserved_head _ h, rfl, rfl⟩

theorem rsvdE (h : Head) : Statement (.rsvdE h) := ⟨reserved_head _ h, rfl, rfl⟩

theorem rsvdF (h : Head) : Statement (.rsvdF h) := ⟨reserved_head _ h, rfl, rfl⟩

theorem status : Statement (.status) := ⟨rfl, rfl⟩

theorem init (r : Role) (m : Option (BitVec 64)) (n : Bool) : Statement (.init r m n) := ⟨rfl, rfl⟩

theorem rxByte (b : Byte) : Statement (.rxByte b) := ⟨rfl, rfl⟩

theorem rxChunk (bs : List Byte) : Statement (.rxChunk bs) := ⟨rfl, rfl⟩

theorem txFrame (fin : Bool) (op : BitVec 4) (p : List Byte) : Statement (.txFrame fin op p) := ⟨rfl, rfl⟩

theorem txClose (p : List Byte) : Statement (.txClose p) := ⟨rfl, rfl⟩

theorem txPing (p : List Byte) : Statement (.txPing p) := ⟨rfl, rfl⟩

end Sys2Proof.Laws.EncodedRow
end

