-- ==== Sys2Proof/Tests/Slice0.lean ====
section
/-!
SUPPORT. Tests: ill-formed terms, words written out bit by bit, single steps with the results of 95_test_vectors.md, and
a witness for the hypotheses of every statement that has some.
-/

namespace Sys2Proof.Machine.Tests

/-! ### WellFormed refuses (R90, R102, R220) -/

def longPayload : Frame := ⟨true, 0, none, List.replicate (2 ^ 64) 0⟩

def longControl : Frame := ⟨true, 0, none, List.replicate 126 0⟩

theorem test_wf_cont_refused : (Instr.cont longPayload).wf = false := by
  simp only [Instr.wf, Frame.dataWf, longPayload, List.length_replicate, Nat.lt_irrefl, decide_false]

theorem test_wf_text_refused : (Instr.text longPayload).wf = false := by
  simp only [Instr.wf, Frame.dataWf, longPayload, List.length_replicate, Nat.lt_irrefl, decide_false]

theorem test_wf_bin_refused : (Instr.bin longPayload).wf = false := by
  simp only [Instr.wf, Frame.dataWf, longPayload, List.length_replicate, Nat.lt_irrefl, decide_false]

theorem test_wf_close_refused : (Instr.close longControl).wf = false := by decide +kernel

theorem test_wf_ping_refused : (Instr.ping longControl).wf = false := by decide +kernel

theorem test_wf_pong_refused : (Instr.pong longControl).wf = false := by decide +kernel

/-! ### Words written out bit by bit: byte 0 is FIN RSV OPCODE (R91), byte 1 is MASK LEN7 (R92) -/

theorem test_decode_cont : decodeFrame [0b0_000_0000#8, 0b0_0000001#8, 0x41] =
    .ok (.cont ⟨false, 0, none, [0x41]⟩, []) := by decide

theorem test_decode_text : decodeFrame [0b1_000_0001#8, 0b1_0000010#8, 0x01, 0x02, 0x03, 0x04, 0x49, 0x67] =
    .ok (.text ⟨true, 0, some #v[0x01, 0x02, 0x03, 0x04], [0x48, 0x65]⟩, []) := by decide

theorem test_decode_bin : decodeFrame [0b0_101_0010#8, 0b0_0000000#8, 0xff] =
    .ok (.bin ⟨false, 0b101, none, []⟩, [0xff]) := by decide

theorem test_decode_close : decodeFrame [0b1_000_1000#8, 0b0_0000010#8, 0x03, 0xe8] =
    .ok (.close ⟨true, 0, none, [0x03, 0xe8]⟩, []) := by decide

theorem test_decode_ping : decodeFrame [0b0_000_1001#8, 0b1_0000000#8, 0x09, 0x08, 0x07, 0x06] =
    .ok (.ping ⟨false, 0, some #v[0x09, 0x08, 0x07, 0x06], []⟩, []) := by decide

theorem test_decode_pong : decodeFrame [0b1_000_1010#8, 0b0_0000001#8, 0x41] =
    .ok (.pong ⟨true, 0, none, [0x41]⟩, []) := by decide

theorem test_decode_rsvd3 : decodeFrame [0b1_000_0011#8, 0x85] = .ok (.rsvd3 ⟨true, 0⟩, [0x85]) := by decide

theorem test_decode_rsvd4 : decodeFrame [0b0_000_0100#8] = .ok (.rsvd4 ⟨false, 0⟩, []) := by decide

theorem test_decode_rsvd5 : decodeFrame [0b0_100_0101#8] = .ok (.rsvd5 ⟨false, 0b100⟩, []) := by decide

theorem test_decode_rsvd6 : decodeFrame [0b1_010_0110#8] = .ok (.rsvd6 ⟨true, 0b010⟩, []) := by decide

theorem test_decode_rsvd7 : decodeFrame [0b1_001_0111#8] = .ok (.rsvd7 ⟨true, 0b001⟩, []) := by decide

theorem test_decode_rsvdB : decodeFrame [0b1_000_1011#8] = .ok (.rsvdB ⟨true, 0⟩, []) := by decide

theorem test_decode_rsvdC : decodeFrame [0b0_000_1100#8] = .ok (.rsvdC ⟨false, 0⟩, []) := by decide

theorem test_decode_rsvdD : decodeFrame [0b0_111_1101#8] = .ok (.rsvdD ⟨false, 0b111⟩, []) := by decide

theorem test_decode_rsvdE : decodeFrame [0b1_000_1110#8] = .ok (.rsvdE ⟨true, 0⟩, []) := by decide

theorem test_decode_rsvdF : decodeFrame [0b1_111_1111#8] = .ok (.rsvdF ⟨true, 0b111⟩, []) := by decide

/-- The codes of R262. -/
theorem test_decode_status : decodeCommand { code := 0b000#3 } = .ok .status := by decide

theorem test_decode_init : decodeCommand { code := 0b001#3, role := .client, maxPayload := some 10, pongNotify := true } =
    .ok (.init .client (some 10) true) := by decide

theorem test_decode_rxByte : decodeCommand { code := 0b010#3, byte := 0x81 } = .ok (.rxByte 0x81) := by decide

theorem test_decode_rxChunk : decodeCommand { code := 0b011#3, bytes := [0x81, 0x05] } = .ok (.rxChunk [0x81, 0x05]) := by
  decide

theorem test_decode_txFrame : decodeCommand { code := 0b100#3, fin := true, opcode := 0x2, bytes := [0x41] } =
    .ok (.txFrame true 0x2 [0x41]) := by decide

theorem test_decode_txClose : decodeCommand { code := 0b101#3, bytes := [0x03, 0xe8] } = .ok (.txClose [0x03, 0xe8]) := by
  decide

theorem test_decode_txPing : decodeCommand { code := 0b110#3 } = .ok (.txPing []) := by decide

/-- Code 7 is no command (R262). -/
theorem test_decode_code7_refused : decodeCommand { code := 0b111#3 } = .error .unassignedCode := by decide

/-- 65535 and 65536 stand at the two ends of the long forms: the shorter form is asked for (R100), H7 and H10. -/
theorem test_decode_nonMinimal_refused :
    decodeFrame [0x82, 0x7e, 0x00, 0x7d] = .error .nonMinimalLength ∧
      decodeFrame [0x82, 0x7f, 0, 0, 0, 0, 0, 0, 0xff, 0xff] = .error .nonMinimalLength := by decide

/-- E6 and E5: 125 is the largest control length (R102). -/
theorem test_decode_control_long_refused :
    decodeFrame [0x89, 0x7e, 0x00, 0x7e] = .error .controlTooLong ∧ decodeFrame [0x89, 0x7d] = .error .truncated := by
  decide

/-! ### The encoder (95_test_vectors.md 2.1) -/

theorem test_encode_client_bin :
    encodeTx .client true 0x2 #v[0xff, 0x0f, 0xf0, 0x55] [0x10, 0x20, 0x30, 0x40, 0x50, 0x60, 0x70] =
      [0x82, 0x87, 0xff, 0x0f, 0xf0, 0x55, 0xef, 0x2f, 0xc0, 0x15, 0xaf, 0x6f, 0x80] := by decide

theorem test_lenField_corners :
    lenField false 125 = [0x7d] ∧ lenField false 126 = [0x7e, 0x00, 0x7e] ∧ lenField false 256 = [0x7e, 0x01, 0x00] ∧
      lenField false 65535 = [0x7e, 0xff, 0xff] ∧ lenField true 65536 = [0xff, 0, 0, 0, 0, 0, 1, 0, 0] ∧
      lenField false (2 ^ 32) = [0x7f, 0, 0, 0, 1, 0, 0, 0, 0] ∧
      lenField false (2 ^ 64 - 1) = [0x7f, 0xff, 0xff, 0xff, 0xff, 0xff, 0xff, 0xff, 0xff] := by decide

/-! ### Single steps (95_test_vectors.md, the vector named in each docstring) -/

/-- A state just after INIT with these arguments, the key source ready with `keys`, over a zero buffer. -/
def fresh (role : Role) (maxPayload : Option (BitVec 64) := none) (pongNotify : Bool := false) (keys : List Key := []) :
    State :=
  { State.reset with
    link :=
      { State.reset.link with
        conn := initConn role maxPayload pongNotify (Vector.replicate 125 0)
        keys := keys } }

/-- A fresh state with some fields of the Connection changed. -/
def with' (f : Conn → Conn) (s : State) : State := { s with link := { s.link with conn := f s.link.conn } }

/-- What an instruction emits and returns. -/
def result (i : Instr) (s : State) : Option (List Output × Status) :=
  match exec i s with
  | .next t => some (t.link.output, t.status)
  | .fault _ => none
  | .refused _ => none

/-- One thing read off the Connection an instruction leaves. -/
def leaves {α : Type} (g : Conn → α) (i : Instr) (s : State) : Option α :=
  match exec i s with
  | .next t => some (g t.link.conn)
  | .fault _ => none
  | .refused _ => none

/-- D4. -/
theorem test_cont_continue : result (.cont ⟨false, 0, none, [0x41]⟩) (fresh .client) =
    some ([.dlvData 0x41 false, .dlvEnd .cont false], .ok) := by decide

/-- D3: no message open is no error; the type of the last TEXT or BIN frame decides (R172). -/
theorem test_cont_binary : result (.cont ⟨true, 0, none, [0x41]⟩) (with' ({ · with lastOpcode := 0x2 }) (fresh .client)) =
    some ([.dlvData 0x41 true, .dlvEnd .finish true], .ok) := by decide

/-- S3. -/
theorem test_text_masked :
    result (.text ⟨true, 0, some #v[0x37, 0xfa, 0x21, 0x3d], [0x48, 0x65, 0x6c, 0x6c, 0x6f]⟩) (fresh .server) =
      some ([.dlvData 0x48 false, .dlvData 0x65 false, .dlvData 0x6c false, .dlvData 0x6c false, .dlvData 0x6f false,
        .dlvEnd .finish false], .ok) := by decide

/-- D5, and its `lastOpcode`. -/
theorem test_text_empty_fragment : result (.text ⟨false, 0, none, []⟩) (fresh .client) =
      some ([.dlvEnd .start false], .ok) ∧
    leaves (fun c => (c.lastOpcode, c.hdrByte0, c.hdrByte1)) (.text ⟨false, 0, none, []⟩) (fresh .client) =
      some (0x1, 0x01, 0x00) := by decide

/-- D2. -/
theorem test_bin_delivered : result (.bin ⟨true, 0, none, [0x01, 0x02, 0x03]⟩) (fresh .client) =
    some ([.dlvData 0x01 true, .dlvData 0x02 true, .dlvData 0x03 true, .dlvEnd .finish true], .ok) := by decide

/-- E8. -/
theorem test_bin_too_large :
    result (.bin ⟨true, 0, none, List.replicate 11 0⟩) (fresh .client (some 10)) = some ([.evError 5], .halted) := by decide

/-- S6, inbound first. -/
theorem test_close_echoed : result (.close ⟨true, 0, some #v[0xa1, 0xb2, 0xc3, 0xd4], [0x03, 0xe8]⟩) (fresh .server) =
    some ([.tx [0x88, 0x02, 0x03, 0xe8], .evShutdown], .ok) := by decide +kernel

/-- P3, second close. -/
theorem test_close_not_echoed_twice :
    result (.close ⟨true, 0, some #v[0xa1, 0xb2, 0xc3, 0xd4], [0x03, 0xe8]⟩)
      (with' ({ · with closeSent := true }) (fresh .server)) = some ([.evShutdown], .ok) := by decide

/-- S8, server. -/
theorem test_ping_answered :
    result (.ping ⟨true, 0, some #v[0x37, 0xfa, 0x21, 0x3d], [0x70, 0x69, 0x6e, 0x67]⟩) (fresh .server) =
      some ([.tx [0x8a, 0x04, 0x70, 0x69, 0x6e, 0x67]], .ok) := by decide +kernel

/-- K2: a ping with `fin = 0`; the pong of a client is masked with the key drawn. -/
theorem test_ping_client :
    result (.ping ⟨false, 0, none, [0x41]⟩) (fresh .client (keys := [#v[0x01, 0x02, 0x03, 0x04]])) =
      some ([.tx [0x8a, 0x81, 0x01, 0x02, 0x03, 0x04, 0x40]], .ok) := by decide +kernel

/-- K3. -/
theorem test_pong_reported : result (.pong ⟨true, 0, none, [0x41, 0x42]⟩) (fresh .client (pongNotify := true)) =
    some ([.evPong 2], .ok) := by decide

/-- K4. -/
theorem test_pong_quiet : result (.pong ⟨true, 0, none, [0x41, 0x42]⟩) (fresh .client) = some ([], .ok) ∧
    leaves (fun c => (c.ctrlLen, ctrlPayload c)) (.pong ⟨true, 0, none, [0x41, 0x42]⟩) (fresh .client) =
      some (2, [0x41, 0x42]) := by decide +kernel

/-- E1 and E2: all ten reserved opcodes. -/
theorem test_reserved_halt :
    ∀ i ∈ [Instr.rsvd3 ⟨true, 0⟩, .rsvd4 ⟨true, 0⟩, .rsvd5 ⟨true, 0⟩, .rsvd6 ⟨true, 0⟩, .rsvd7 ⟨true, 0⟩,
      .rsvdB ⟨true, 0⟩, .rsvdC ⟨true, 0⟩, .rsvdD ⟨true, 0⟩, .rsvdE ⟨true, 0⟩, .rsvdF ⟨true, 0⟩],
      result i (fresh .server) = some ([.evError 1], .halted) ∧ leaves (·.hdrByte0) i (fresh .server) = some 0 := by
  decide

/-- H2. -/
theorem test_rxByte_length :
    leaves (fun c => (c.decodeStep, c.fieldIdx, c.hdrByte1, c.payloadBytesRemaining)) (.rxByte 0x85)
      (with' ({ · with decodeStep := .length, hdrByte0 := 0x81, lastOpcode := 1 }) (fresh .server)) =
      some (.key, 0, 0x85, 5) := by decide

/-- E12: mask direction is checked before the control length. -/
theorem test_rxByte_priority :
    result (.rxByte 0x7e) (with' ({ · with decodeStep := .length, hdrByte0 := 0x89 }) (fresh .server)) =
      some ([.evError 2], .halted) := by decide

/-- H11: bit 63 of a length is an ordinary bit. -/
theorem test_rxChunk_length63 :
    leaves (fun c => (c.decodeStep, c.payloadBytesRemaining)) (.rxChunk [0x82, 0x7f, 0x80, 0, 0, 0, 0, 0, 0, 0])
      (fresh .client) = some (.data, 9223372036854775808) := by decide

/-- D7, the first nine of thirteen bytes. -/
theorem test_rxChunk_midFrame :
    leaves (fun c => (c.decodeStep, c.payloadBytesRemaining, c.maskCounter))
      (.rxChunk [0x82, 0x87, 0xff, 0x0f, 0xf0, 0x55, 0xef, 0x2f, 0xc0]) (fresh .server) = some (.data, 4, 3) := by decide

/-- The four bytes that remain of D7, received by a frame instruction's own rule: they are one chunk. -/
theorem test_rxChunk_rest :
    result (.rxChunk [0x15, 0xaf, 0x6f, 0x80])
      (with' ({ · with
        decodeStep := .data, hdrByte0 := 0x82, hdrByte1 := 0x87, hdrKey := #v[0xff, 0x0f, 0xf0, 0x55]
        payloadBytesRemaining := 4, maskCounter := 3, lastOpcode := 2 }) (fresh .server)) =
      some ([.dlvData 0x40 true, .dlvData 0x50 true, .dlvData 0x60 true, .dlvData 0x70 true, .dlvEnd .finish true],
        .ok) := by decide

/-- T3. -/
theorem test_txFrame_client :
    result (.txFrame true 0x0 [0x6c, 0x6c, 0x6f]) (fresh .client (keys := [#v[0x01, 0x02, 0x03, 0x04]])) =
      some ([.tx [0x80, 0x83, 0x01, 0x02, 0x03, 0x04, 0x6d, 0x6e, 0x6c]], .ok) := by decide

/-- T4 and T5. -/
theorem test_txFrame_refused :
    result (.txFrame true 0x3 []) (fresh .server) = some ([], .refusedOpcode) ∧
      result (.txFrame true 0x9 (List.replicate 126 0)) (fresh .server) = some ([], .refusedOversize) := by decide +kernel

/-- R258: admission does not look at the payload of a reserved opcode, and refuses a control frame of any size above 125
bytes; R255: a data frame of any size is sent. -/
theorem test_txFrame_any_size (p : List Byte) (h : p.length = 2 ^ 64) :
    exec (.txFrame true 0x3 p) (fresh .server) = .next ((fresh .server).after (fresh .server).conn [] .refusedOpcode) ∧
      exec (.txFrame true 0x8 p) (fresh .server) =
        .next ((fresh .server).after (fresh .server).conn [] .refusedOversize) ∧
      ∃ t, exec (.txFrame true 0x2 p) (fresh .server) = .next t ∧ t.status = .ok := by
  refine ⟨rfl, ?_, _, rfl, rfl⟩
  have hc : decide (Config.ctrlMax < p.length) = true := by rw [h]; decide
  simp only [exec, execTxFrame, runCommand, hc]; rfl

/-- T11: outbound works when halted. -/
theorem test_txClose_halted :
    result (.txClose [0x03, 0xea]) (with' ({ · with errorCode := 2 }) (fresh .server)) =
      some ([.tx [0x88, 0x02, 0x03, 0xea]], .ok) := by decide

/-- T9 and T10: the order of the two checks. -/
theorem test_txClose_refused :
    result (.txClose (List.replicate 126 0)) (with' ({ · with closeSent := true }) (fresh .server)) =
        some ([], .alreadyClosed) ∧
      result (.txClose (List.replicate 126 0)) (fresh .server) = some ([], .refusedOversize) := by decide +kernel

/-- T7. -/
theorem test_txPing : result (.txPing [0x70, 0x69, 0x6e, 0x67]) (fresh .server) =
    some ([.tx [0x89, 0x04, 0x70, 0x69, 0x6e, 0x67]], .ok) := by decide

/-- P4: after INIT the halt and `closeSent` are gone (R42). -/
theorem test_init_clears :
    leaves (fun c => (c.errorCode, c.closeSent, c.decodeStep, c.hdrByte0, c.maxPayloadBytes))
      (.init .client (some 10) false)
      (with' ({ · with errorCode := 1, closeSent := true, decodeStep := .length, hdrByte0 := 0x81 }) (fresh .server)) =
      some (0, false, .start, 0, 10) := by decide

/-- P4: STATUS shows the code and emits nothing (R261). -/
theorem test_status_reads :
    (match exec .status (with' ({ · with errorCode := 1 }) (fresh .client)) with
      | .next t => (t.reply.map (·.errorCode), t.link.output, t.status)
      | _ => (none, [], .halted)) = (some 1, [], .ok) := by decide

/-! ### Fetching -/

/-- The rows of the table, given as the host gives them. -/
theorem test_tableWord_frames :
    decodeTableWord 8 0x01 = some (.text ⟨false, 0, none, []⟩) ∧ decodeTableWord 8 0x0B = some (.rsvdB ⟨false, 0⟩) ∧
      decodeTableWord 16 0x0289 = some (.ping ⟨true, 0, none, [0, 0]⟩) := by decide

theorem test_tableWord_commands :
    decodeTableWord 3 0 = some .status ∧ decodeTableWord 3 5 = some (.txClose []) ∧ decodeTableWord 3 7 = none := by decide

/-- The word placed is the instruction that the next step runs: an unmasked frame at a server, violation 2 (R134). -/
theorem test_withFetchWord_frame :
    (match step (State.reset.withFetchWord 8 0x01) with
      | .next t => (t.link.output, t.inbox)
      | _ => ([], [])) = ([.evError 2], []) := by decide

theorem test_withFetchWord_command :
    (match step (State.reset.withFetchWord 3 6) with
      | .next t => (t.link.output, t.inbox)
      | _ => ([], [])) = ([.tx [0x89, 0x00]], []) := by decide

/-! ### Witnesses: the hypotheses of each statement are met, clause by clause -/

/-- A server or client whose sequencer stands at `d`, the rest set by `f`. -/
def atStep (role : Role) (d : DecodeStep) (f : Conn → Conn := id) : State :=
  with' (fun c => f { c with decodeStep := d }) (fresh role)

theorem atStep_start (role : Role) : (atStep role .start).At .start := by cases role <;> exact ⟨rfl, rfl, rfl⟩

theorem witness_DecodeInvertsEncode : (Instr.text ⟨true, 0, none, [0x41]⟩).wf = true := by decide

theorem witness_FrameEndsByCountingAlone :
    (Instr.ping ⟨true, 0, none, [0x41]⟩).wf = true ∧
      encode (.ping ⟨true, 0, none, [0x41]⟩) = .wire [0x89, 0x01, 0x41] := by decide

theorem witness_EachFrameHasOneEncoding :
    decodeFrame [0x89, 0x01, 0x41, 0x88] = .ok (.ping ⟨true, 0, none, [0x41]⟩, [0x88]) := by decide

theorem witness_LowFourBitsSelectTheRow :
    opcodeOf 0x81 = opcodeOf 0x71 ∧ decodeFrame [0x81, 0x00] = .ok (.text ⟨true, 0, none, []⟩, []) := by decide

theorem witness_LengthFieldIsShortestAndBigEndian :
    (125 ≤ 125 ∧ 125 < 2 ^ 64) ∧ (125 < 126 ∧ 126 ≤ 65535 ∧ 125 < 65535 ∧ 65535 ≤ 65535) ∧
      (65535 < 65536 ∧ 65536 < 2 ^ 64 ∧ 65535 < 2 ^ 64 - 1 ∧ 2 ^ 64 - 1 < 2 ^ 64) := by decide

theorem witness_MaskUsesKeyByteIMod4 : 4 < [0x48#8, 0x65#8, 0x6c#8, 0x6c#8, 0x6f#8].length := by decide

theorem witness_EncodedFrameShape :
    (Role.server = .server ∧ Role.client = .client) ∧
      encodeTx .client true 0x1 #v[0x01, 0x02, 0x03, 0x04] [] = [0x81, 0x80, 0x01, 0x02, 0x03, 0x04] := by decide

theorem witness_DecoderUndoesLengthField :
    let l := (atStep .server .length ({ · with hdrByte0 := 0x89 })).link
    l.conn.errorCode = 0 ∧ l.conn.decodeStep = .length ∧ 125 < 2 ^ 64 ∧ true = expectedMask l.conn.role ∧
      isControl (opcodeOf l.conn.hdrByte0) = true ∧ 125 ≤ 125 ∧ exceeds l.conn (BitVec.ofNat 64 125) = false := by decide

theorem witness_RoundTripAcrossTheLink :
    (fresh .server).At .start ∧ (fresh .server).conn.role ≠ .client ∧ [0x41#8].length < 2 ^ 64 ∧
      exceeds (fresh .server).conn (BitVec.ofNat 64 [0x41#8].length) = false ∧
      [[0x81], [0x81, 0x01, 0x02], [], [0x03, 0x04, 0x40]].flatten =
        encodeTx .client true 0x1 #v[0x01, 0x02, 0x03, 0x04] [0x41] :=
  ⟨⟨rfl, rfl, rfl⟩, by decide, by decide, by decide, by decide⟩

theorem witness_StartAcceptsByteZero : (atStep .server .start).At .start ∧ isReserved (opcodeOf 0x8a) = false :=
  ⟨atStep_start _, by decide⟩

theorem witness_StartRefusesReservedOpcode : (atStep .server .start).At .start ∧ isReserved (opcodeOf 0x8b) = true :=
  ⟨atStep_start _, by decide⟩

/-- Mask direction at each end; a control frame of base length 126; one byte over a maximum of 124. -/
theorem witness_LengthByteChecksInOrder :
    (atStep .server .length).At .length ∧ (atStep .client .length).At .length ∧
      ((atStep .server .length).conn.role = .server ∧ maskOf 0x7d = false) ∧
      ((atStep .client .length).conn.role = .client ∧ maskOf 0x80 = true) ∧
      (let s := atStep .client .length ({ · with hdrByte0 := 0x89 });
        s.At .length ∧ maskOf 0x7e = expectedMask s.conn.role ∧ isControl (opcodeOf s.conn.hdrByte0) = true ∧
          126 ≤ (len7Of 0x7e).toNat) ∧
      (let s := atStep .client .length ({ · with maxPayloadEn := true, maxPayloadBytes := 124 });
        s.At .length ∧ maskOf 0x7d = expectedMask s.conn.role ∧ (len7Of 0x7d).toNat ≤ 125 ∧
          s.conn.maxPayloadEn = true ∧ s.conn.maxPayloadBytes.toNat < (len7Of 0x7d).toNat) :=
  ⟨⟨rfl, rfl, rfl⟩, ⟨rfl, rfl, rfl⟩, by decide, by decide, ⟨⟨rfl, rfl, rfl⟩, by decide⟩, ⟨⟨rfl, rfl, rfl⟩, by decide⟩⟩

/-- 126, 127, a masked 125, an unmasked 1 and 125; the last is a control frame with a maximum of 125. -/
theorem witness_LengthByteAccepted :
    (let s := atStep .client .length ({ · with hdrByte0 := 0x89, maxPayloadEn := true, maxPayloadBytes := 125 });
      s.At .length ∧ maskOf 0x7d = expectedMask s.conn.role ∧
        (isControl (opcodeOf s.conn.hdrByte0) = true → (len7Of 0x7d).toNat ≤ 125) ∧
        ((len7Of 0x7d).toNat ≤ 125 → s.conn.maxPayloadEn = true →
          (len7Of 0x7d).toNat ≤ s.conn.maxPayloadBytes.toNat) ∧
        1 ≤ (len7Of 0x7d).toNat ∧ (len7Of 0x7d).toNat ≤ 125 ∧ maskOf 0x7d = false) ∧
      (let s := atStep .client .length ({ · with hdrByte0 := 0x82 });
        s.At .length ∧ maskOf 0x7e = expectedMask s.conn.role ∧ len7Of 0x7e = 126 ∧
          maskOf 0x7f = expectedMask s.conn.role ∧ len7Of 0x7f = 127 ∧
          maskOf 0x01 = expectedMask s.conn.role ∧ 1 ≤ (len7Of 0x01).toNat ∧ maskOf 0x01 = false ∧
          isControl (opcodeOf s.conn.hdrByte0) = false ∧ s.conn.maxPayloadEn = false) ∧
      (let s := atStep .server .length ({ · with hdrByte0 := 0x82 });
        s.At .length ∧ maskOf 0xfd = expectedMask s.conn.role ∧ (len7Of 0xfd).toNat ≤ 125 ∧ maskOf 0xfd = true) ∧
      (let s := atStep .client .length ({ · with hdrByte0 := 0x89 });
        s.At .length ∧ maskOf 0x00 = expectedMask s.conn.role ∧ len7Of 0x00 = 0 ∧ maskOf 0x00 = false ∧
          isReserved (opcodeOf s.conn.hdrByte0) = false ∧ s.conn.maxPayloadEn = false) :=
  ⟨⟨⟨rfl, rfl, rfl⟩, by decide⟩, ⟨⟨rfl, rfl, rfl⟩, by decide⟩, ⟨⟨rfl, rfl, rfl⟩, by decide⟩, ⟨rfl, rfl, rfl⟩,
    by decide⟩

/-- The first byte; 125; 126 over a maximum of 125; 126 within it. -/
theorem witness_ShortLengthBytes :
    (let s := atStep .client .shortLength;
      s.At .shortLength ∧ s.conn.fieldIdx = 0 ∧ (0x01 : BitVec 64) = s.conn.hdrExtLen.extractLsb' 0 56 ++ 0x01#8) ∧
      (let s := atStep .client .shortLength ({ · with fieldIdx := 1 });
        s.At .shortLength ∧ s.conn.fieldIdx = 1 ∧ (125 : BitVec 64) = s.conn.hdrExtLen.extractLsb' 0 56 ++ 125#8 ∧
          (125 : BitVec 64).toNat < 126 ∧ (126 : BitVec 64) = s.conn.hdrExtLen.extractLsb' 0 56 ++ 126#8 ∧
          126 ≤ (126 : BitVec 64).toNat ∧ exceeds s.conn 126 = false) ∧
      (let s := atStep .client .shortLength ({ · with fieldIdx := 1, maxPayloadEn := true, maxPayloadBytes := 125 });
        s.At .shortLength ∧ s.conn.fieldIdx = 1 ∧ (126 : BitVec 64) = s.conn.hdrExtLen.extractLsb' 0 56 ++ 126#8 ∧
          126 ≤ (126 : BitVec 64).toNat ∧ exceeds s.conn 126 = true) :=
  ⟨⟨⟨rfl, rfl, rfl⟩, by decide⟩, ⟨⟨rfl, rfl, rfl⟩, by decide⟩, ⟨⟨rfl, rfl, rfl⟩, by decide⟩⟩

/-- The seventh byte; 65535; 65536 over a maximum of 65535; 65536 within it. -/
theorem witness_ExtendedLengthBytes :
    (let s := atStep .client .extendedLength ({ · with fieldIdx := 6 });
      s.At .extendedLength ∧ s.conn.fieldIdx.toNat < 7 ∧
        (0x01 : BitVec 64) = s.conn.hdrExtLen.extractLsb' 0 56 ++ 0x01#8) ∧
      (let s := atStep .client .extendedLength ({ · with fieldIdx := 7, hdrExtLen := 0xff });
        s.At .extendedLength ∧ s.conn.fieldIdx = 7 ∧
          (65535 : BitVec 64) = s.conn.hdrExtLen.extractLsb' 0 56 ++ 0xff#8 ∧ (65535 : BitVec 64).toNat < 65536) ∧
      (let s := atStep .client .extendedLength ({ · with fieldIdx := 7, hdrExtLen := 0x100 });
        s.At .extendedLength ∧ s.conn.fieldIdx = 7 ∧
          (65536 : BitVec 64) = s.conn.hdrExtLen.extractLsb' 0 56 ++ 0#8 ∧ 65536 ≤ (65536 : BitVec 64).toNat ∧
          exceeds s.conn 65536 = false) ∧
      (let s := atStep .client .extendedLength
          ({ · with fieldIdx := 7, hdrExtLen := 0x100, maxPayloadEn := true, maxPayloadBytes := 65535 });
        s.At .extendedLength ∧ s.conn.fieldIdx = 7 ∧
          (65536 : BitVec 64) = s.conn.hdrExtLen.extractLsb' 0 56 ++ 0#8 ∧ 65536 ≤ (65536 : BitVec 64).toNat ∧
          exceeds s.conn 65536 = true) :=
  ⟨⟨⟨rfl, rfl, rfl⟩, by decide⟩, ⟨⟨rfl, rfl, rfl⟩, by decide⟩, ⟨⟨rfl, rfl, rfl⟩, by decide⟩,
    ⟨⟨rfl, rfl, rfl⟩, by decide⟩⟩

theorem witness_KeyBytes :
    (let s := atStep .server .key ({ · with fieldIdx := 2 });
      s.At .key ∧ s.conn.fieldIdx.toNat < 4 ∧ s.conn.fieldIdx.toNat < 3) ∧
      (let s := atStep .server .key ({ · with fieldIdx := 3, payloadBytesRemaining := 1 });
        s.At .key ∧ s.conn.fieldIdx.toNat < 4 ∧ s.conn.fieldIdx = 3 ∧ s.conn.payloadBytesRemaining ≠ 0) ∧
      (let s := atStep .server .key ({ · with hdrByte0 := 0x88, hdrByte1 := 0x80, fieldIdx := 3 });
        s.At .key ∧ s.conn.fieldIdx.toNat < 4 ∧ s.conn.fieldIdx = 3 ∧ s.conn.payloadBytesRemaining = 0 ∧
          isReserved (opcodeOf s.conn.hdrByte0) = false) :=
  ⟨⟨⟨rfl, rfl, rfl⟩, by decide⟩, ⟨⟨rfl, rfl, rfl⟩, by decide⟩, ⟨rfl, rfl, rfl⟩, by decide⟩

/-- The last but one byte and the last one; `u` and `c` are the values the statement names, here for `b = 0x42`. -/
theorem witness_DataFramePayloadByte :
    (let s := atStep .client .data ({ · with hdrByte0 := 0x82, payloadBytesRemaining := 2 });
      s.At .data ∧ isData (opcodeOf s.conn.hdrByte0) = true ∧ maskOf s.conn.hdrByte1 = false ∧
        1 < s.conn.payloadBytesRemaining.toNat) ∧
      (let s := atStep .server .data
          ({ · with hdrByte0 := 0x02, hdrByte1 := 0x81, hdrKey := #v[0x01, 0x02, 0x03, 0x04], payloadBytesRemaining := 1 });
        s.At .data ∧ isData (opcodeOf s.conn.hdrByte0) = true ∧ maskOf s.conn.hdrByte1 = true ∧
          0x43#8 = 0x42#8 ^^^ s.conn.hdrKey[s.conn.maskCounter.toNat]'s.conn.maskCounter.isLt ∧
          s.conn.payloadBytesRemaining = 1) :=
  ⟨⟨⟨rfl, rfl, rfl⟩, by decide⟩, ⟨⟨rfl, rfl, rfl⟩, by decide⟩⟩

theorem witness_ControlFramePayloadByte :
    (let s := atStep .client .data ({ · with hdrByte0 := 0x89, payloadBytesRemaining := 2, ctrlLen := 123 });
      s.At .data ∧ s.conn.ctrlLen.toNat < 125 ∧ isControl (opcodeOf s.conn.hdrByte0) = true ∧
        1 < s.conn.payloadBytesRemaining.toNat ∧ maskOf s.conn.hdrByte1 = false) ∧
      (let s := atStep .client .data ({ · with hdrByte0 := 0x8A, payloadBytesRemaining := 1, ctrlLen := 124 });
        s.At .data ∧ s.conn.ctrlLen.toNat < 125 ∧ isControl (opcodeOf s.conn.hdrByte0) = true ∧
          s.conn.payloadBytesRemaining = 1) := ⟨⟨⟨rfl, rfl, rfl⟩, by decide⟩, ⟨rfl, rfl, rfl⟩, by decide⟩

/-- The byte that ends an empty continuation and the last byte of a pong (R146, R177, R194). -/
theorem test_afterEnd :
    (∃ t, exec (.rxByte 0x00) (atStep .client .length ({ · with hdrByte0 := 0x80 })) = .next t ∧
        t.link.output = [.dlvEnd .finish false] ∧ t.conn.decodeStep = .start) ∧
      (∃ t, exec (.rxByte 0x41) (atStep .client .data
          ({ · with hdrByte0 := 0x8A, hdrByte1 := 1, pongNotify := true, payloadBytesRemaining := 1 })) = .next t ∧
        t.link.output = [.evPong 1]) :=
  ⟨⟨_, rfl, by decide⟩, ⟨_, rfl, by decide⟩⟩

/-- A byte that has a next state: an edge, a step of several bytes, a violation, a byte dropped. -/
theorem witness_SequencerFollowsTransitionTable :
    (∃ t, exec (.rxByte 0x81) (atStep .server .start) = .next t ∧ t.conn.decodeStep = .length) ∧
      (∃ t, exec (.rxByte 0x01) (atStep .server .key) = .next t ∧ t.conn.decodeStep = .key) ∧
      (∃ t, exec (.rxByte 0x83) (atStep .server .start) = .next t ∧ t.conn.errorCode = 1) ∧
      (∃ t, exec (.rxByte 0x83) (atStep .server .endStep ({ · with errorCode := 5 })) = .next t ∧
        t.conn.decodeStep = .endStep) :=
  ⟨⟨_, rfl, rfl⟩, ⟨_, rfl, rfl⟩, ⟨_, rfl, rfl⟩, ⟨_, rfl, rfl⟩⟩

/-- The last byte of a data frame, and the byte that ends an empty close. -/
theorem witness_OutputOrderOfOneByte :
    (∃ t, exec (.rxByte 0x41) (atStep .client .data ({ · with hdrByte0 := 0x81, payloadBytesRemaining := 1 })) = .next t ∧
        t.link.output = [.dlvData 0x41 false, .dlvEnd .finish false]) ∧
      (∃ t, exec (.rxByte 0x04) (atStep .server .key ({ · with hdrByte0 := 0x88, hdrByte1 := 0x80, fieldIdx := 3 })) =
          .next t ∧ t.link.output = [.tx [0x88, 0x00], .evShutdown]) :=
  ⟨⟨_, rfl, by decide⟩, ⟨_, rfl, by decide⟩⟩

theorem witness_ViolationChangesOnlyErrorCode :
    ∃ t, (atStep .server .length).conn.errorCode = 0 ∧ exec (.rxByte 0x05) (atStep .server .length) = .next t ∧
      t.conn.errorCode ≠ 0 := ⟨_, rfl, rfl, by decide⟩

theorem witness_HaltedDecoderDropsBytes :
    let s := atStep .server .length ({ · with errorCode := 2 })
    s.initialised = true ∧ s.conn.errorCode ≠ 0 ∧
      receivedBytes (.text ⟨true, 0, none, [0x41]⟩) = some [0x81, 0x01, 0x41] ∧
      receivedBytes (.rsvdF ⟨true, 0⟩) = some [0x8f] ∧ receivedBytes (.rxChunk []) = some [] := by decide

theorem witness_WrongMaskDirectionHalts :
    (fresh .server).At .start ∧ (fresh .client).At .start ∧
      frameInstr 0x1 ⟨true, 0, none, [0x41]⟩ = some (.text ⟨true, 0, none, [0x41]⟩) ∧
      ((fresh .server).conn.role = .server ∧ (⟨true, 0, none, [0x41]⟩ : Frame).key = none) ∧
      frameInstr 0x9 ⟨true, 0, some #v[0, 0, 0, 0], []⟩ = some (.ping ⟨true, 0, some #v[0, 0, 0, 0], []⟩) ∧
      ((fresh .client).conn.role = .client ∧ (⟨true, 0, some #v[0, 0, 0, 0], []⟩ : Frame).key ≠ none) :=
  ⟨⟨rfl, rfl, rfl⟩, ⟨rfl, rfl, rfl⟩, by decide⟩

theorem witness_FrameOverMaximumHalts :
    let s := fresh .client (some 1)
    let f : Frame := ⟨true, 0, none, [0x41, 0x42]⟩
    s.At .start ∧ frameInstr 0x9 f = some (.ping f) ∧ (Instr.ping f).wf = true ∧
      f.key.isSome = expectedMask s.conn.role ∧ s.conn.maxPayloadEn = true ∧
      s.conn.maxPayloadBytes.toNat < f.payload.length := ⟨⟨rfl, rfl, rfl⟩, by decide⟩

theorem witness_OversizedControlFrameHalts :
    (fresh .server).At .start ∧ isControl (opcodeOf 0x08) = true ∧ maskOf 0xfe = expectedMask (fresh .server).conn.role ∧
      126 ≤ (len7Of 0xfe).toNat := ⟨⟨rfl, rfl, rfl⟩, by decide⟩

/-- 125 in two bytes, 65535 in eight. -/
theorem witness_NonMinimalLengthHalts :
    (fresh .client).At .start ∧ isData (opcodeOf 0x82) = true ∧
      (maskOf 0x7e = expectedMask (fresh .client).conn.role ∧ len7Of 0x7e = 126 ∧ [0#8, 125#8].length = 2 ∧
        (lengthOf [0, 125]).toNat < 126) ∧
      (maskOf 0x7f = expectedMask (fresh .client).conn.role ∧ len7Of 0x7f = 127 ∧
        [0#8, 0#8, 0#8, 0#8, 0#8, 0#8, 0xff#8, 0xff#8].length = 8 ∧
        (lengthOf [0, 0, 0, 0, 0, 0, 0xff, 0xff]).toNat < 65536) := ⟨⟨rfl, rfl, rfl⟩, by decide⟩

/-- The hypotheses of the statements about whole frames: a data frame at its maximum, a control frame of 125 bytes. -/
theorem witness_TextBinContFrames :
    let s := fresh .client (some 2)
    let f : Frame := ⟨true, 0, none, [0x41, 0x42]⟩
    s.At .start ∧ s.conn.Accepts f ∧ f.payload.length < 2 ^ 64 :=
  ⟨⟨rfl, rfl, rfl⟩, ⟨rfl, by decide⟩, by decide⟩

theorem witness_ClosePingPongFrames :
    let s := fresh .server
    let f : Frame := ⟨false, 0b111, some #v[0x01, 0x02, 0x03, 0x04], List.replicate 125 0⟩
    s.At .start ∧ s.conn.Accepts f ∧ f.payload.length ≤ 125 ∧ s.conn.closeSent = false :=
  ⟨⟨rfl, rfl, rfl⟩, ⟨rfl, rfl⟩, by decide +kernel, rfl⟩

theorem witness_CloseFrameEchoedOnce_second :
    let s := with' ({ · with closeSent := true }) (fresh .client)
    let f : Frame := ⟨true, 0, none, []⟩
    s.At .start ∧ s.conn.Accepts f ∧ f.payload.length ≤ 125 ∧ s.conn.closeSent = true :=
  ⟨⟨rfl, rfl, rfl⟩, ⟨rfl, rfl⟩, by decide, rfl⟩

theorem witness_ReservedFramesHalt :
    (fresh .client).At .start ∧ Instr.rsvdB ⟨false, 0b111⟩ ∈
      [Instr.rsvd3 ⟨false, 0b111⟩, .rsvd4 ⟨false, 0b111⟩, .rsvd5 ⟨false, 0b111⟩, .rsvd6 ⟨false, 0b111⟩,
        .rsvd7 ⟨false, 0b111⟩, .rsvdB ⟨false, 0b111⟩] := ⟨⟨rfl, rfl, rfl⟩, by decide⟩

theorem witness_ThreeFragmentsKeepTheirType :
    let s := fresh .client
    let f₁ : Frame := ⟨false, 0, none, [0x01, 0x02]⟩
    let f₂ : Frame := ⟨false, 0, none, [0x03]⟩
    let f₃ : Frame := ⟨true, 0, none, [0x04, 0x05]⟩
    let g : Frame := ⟨true, 0, none, []⟩
    s.At .start ∧ s.conn.Accepts f₁ ∧ s.conn.Accepts f₂ ∧ s.conn.Accepts f₃ ∧ s.conn.Accepts g ∧
      f₁.payload.length < 2 ^ 64 ∧ f₂.payload.length < 2 ^ 64 ∧ f₃.payload.length < 2 ^ 64 ∧ g.payload.length ≤ 125 ∧
      f₁.fin = false ∧ f₂.fin = false ∧ f₃.fin = true :=
  ⟨⟨rfl, rfl, rfl⟩, ⟨rfl, rfl⟩, ⟨rfl, rfl⟩, ⟨rfl, rfl⟩, ⟨rfl, rfl⟩, by decide, by decide, by decide, by decide, rfl, rfl,
    rfl⟩

theorem witness_ReservedBitsAreIgnored :
    let f : Frame := ⟨true, 0, none, [0x41]⟩
    (fresh .client).At .start ∧ (Instr.text f).wf = true ∧ frameInstr 0x1 f = some (.text f) ∧
      frameInstr 0x1 { f with rsv := 0b111 } = some (.text { f with rsv := 0b111 }) := ⟨⟨rfl, rfl, rfl⟩, by decide⟩

theorem witness_NothingButInitBeforeInit :
    ({ State.reset with initialised := false } : State).initialised = false ∧ isInit .status = false ∧
      isInit (.rxByte 0x81) = false := by decide

/-- A server in the middle of a masked ping's payload. -/
def midPing : State :=
  atStep .server .data
    ({ · with
      hdrByte0 := 0x89, hdrByte1 := 0x82, hdrKey := #v[0x01, 0x02, 0x03, 0x04], fieldIdx := 3
      payloadBytesRemaining := 1, maskCounter := 1, ctrlLen := 1 })

theorem midPing_inv : midPing.conn.Inv where
  notAtEnd := by decide
  ctrlLenFits := by decide
  errorCodeListed := by decide
  noMaximumIsZero := by decide
  lastOpcodeListed := by decide
  opcodeDefined := by decide
  lastOpcodeIsOpcode := by decide
  maskAgrees := by decide
  shortLength := by decide
  extendedLength := by decide
  key := by decide
  data := by decide

theorem witness_ReceptionCompletes :
    receivedBytes (.ping ⟨true, 0, none, [0x41]⟩) = some [0x89, 0x01, 0x41] ∧ receivedBytes (.rxByte 0x41) = some [0x41] ∧
      receivedBytes (.rsvd3 ⟨true, 0⟩) = some [0x83] := by decide

/-- For ReceptionCompletes, SequencerFollowsTransitionTable, StepKeepsInvariants and NoFaultUnderInvariants: the invariants hold in the middle of a frame,
and a step goes on from there. -/
theorem witness_Invariants :
    midPing.initialised = true ∧ midPing.conn.Inv ∧
      (∃ t, step { midPing with inbox := [.wire [0x41]] } = .next t ∧ t.conn.decodeStep = .start) :=
  ⟨rfl, midPing_inv, _, rfl, by decide⟩

theorem witness_ChunkStatements : midPing.initialised = true := rfl

/-- 125 and 126 bytes, on the two sides of the control limit. -/
theorem witness_TxFrameSendsOrRefuses :
    (fresh .server).initialised = true ∧ isReserved 0xB = true ∧
      (isControl 0x8 = true ∧ 125 < (List.replicate 126 (0 : Byte)).length) ∧
      (isReserved 0xA = false ∧ (isControl 0xA = true → (List.replicate 125 (0 : Byte)).length ≤ 125)) := by
  decide +kernel

theorem witness_TxCloseSendsOnce :
    (fresh .server).initialised = true ∧ (fresh .server).conn.closeSent = false ∧
      (with' ({ · with closeSent := true }) (fresh .server)).conn.closeSent = true ∧
      125 < (List.replicate 126 (0 : Byte)).length ∧ (List.replicate 125 (0 : Byte)).length ≤ 125 := by decide +kernel

theorem witness_TxPingSends :
    (fresh .client).initialised = true ∧ 125 < (List.replicate 126 (0 : Byte)).length ∧
      (List.replicate 125 (0 : Byte)).length ≤ 125 := by decide +kernel

/-- Every way to send, and each clause: a server, a client with a key ready, a client with none. -/
theorem witness_OneKeyDrawnPerClientFrame :
    let masked : Frame := ⟨true, 0, some #v[0x01, 0x02, 0x03, 0x04], []⟩
    let server := fresh .server
    let client := fresh .client (keys := [#v[0x01, 0x02, 0x03, 0x04]])
    (server.initialised = true ∧ server.conn.role = .server ∧ server.Sends (.ping masked) true 0xA [] ∧
        server.Sends (.close masked) true 0x8 []) ∧
      (client.initialised = true ∧ client.conn.role = .client ∧ client.link.keys = #v[0x01, 0x02, 0x03, 0x04] :: [] ∧
        client.Sends (.txFrame false 0x1 []) false 0x1 [] ∧ client.Sends (.txClose []) true 0x8 []) ∧
      (fresh .client).initialised = true ∧ (fresh .client).conn.role = .client ∧ (fresh .client).link.keys = [] ∧
        (fresh .client).Sends (.txPing (List.replicate 125 0)) true 0x9 (List.replicate 125 0) :=
  ⟨⟨rfl, rfl, .ping _ ⟨rfl, rfl, rfl⟩ ⟨rfl, rfl⟩ (by decide), .close _ ⟨rfl, rfl, rfl⟩ ⟨rfl, rfl⟩ (by decide) rfl⟩,
    ⟨rfl, rfl, rfl, .txFrame _ _ _ (by decide) (by decide), .txClose _ rfl (by decide)⟩, rfl, rfl, rfl,
    .txPing _ (by simp)⟩

theorem witness_StatusCopiesEveryField : midPing.initialised = true ∧ 0 < 125 ∧ 0 < midPing.conn.ctrlLen.toNat := by decide

/-- Two states that differ in the decoder and in `errorCode` only. -/
theorem witness_OutboundReadsOnlyRoleAndCloseSent :
    let s := fresh .server
    let s' := atStep .server .key ({ · with errorCode := 2, hdrByte0 := 0x88 })
    isOutbound (.txClose []) = true ∧ isOutbound (.txPing []) = true ∧ isOutbound (.txFrame true 0x1 []) = true ∧
      s.initialised = true ∧ s'.initialised = true ∧ s.conn.role = s'.conn.role ∧
      s.conn.closeSent = s'.conn.closeSent ∧ s.link.keys = s'.link.keys ∧ s.link.draws = s'.link.draws := by decide

theorem witness_StepRunsTheDecodedInstruction :
    (let s : State := { fresh .server with inbox := [.command { code := 6 }] };
      s.inbox = .command { code := 6 } :: [] ∧ decodeCommand { code := 6 } = .ok (.txPing [])) ∧
      (let s : State := { fresh .client with inbox := [.wire [0x81, 0x00, 0x82]] };
        s.inbox = .wire [0x81, 0x00, 0x82] :: [] ∧ s.conn.decodeStep = .start ∧
          decodeFrame [0x81, 0x00, 0x82] = .ok (.text ⟨true, 0, none, []⟩, [0x82])) := by decide

theorem witness_OtherBytesAreReceivedSingly :
    (let s : State := { midPing with inbox := [.wire [0x41, 0x81]] };
      s.inbox = .wire (0x41 :: [0x81]) :: [] ∧ s.conn.decodeStep ≠ .start) ∧
      (let s : State := { fresh .client with inbox := [.wire [0x81]] };
        s.inbox = .wire (0x81 :: []) :: [] ∧ s.conn.decodeStep = .start ∧
          ∃ e, decodeFrame (0x81 :: []) = .error e) ∧
      ({ fresh .client with inbox := [.wire []] } : State).inbox = .wire [] :: [] :=
  ⟨by decide, ⟨rfl, rfl, .truncated, rfl⟩, rfl⟩

theorem witness_IdleStepChangesNothing : (fresh .server).inbox = [] := rfl

theorem witness_UnassignedCodeIsRefused :
    ({ fresh .server with inbox := [.command { code := 7 }] } : State).inbox = .command { code := 7 } :: [] ∧
      ({ code := 7 } : CmdWord).code = 7 ∧
      ({ fresh .server with inbox := [.command { code := 6 }] } : State).inbox = .command { code := 6 } :: [] ∧
      ({ code := 6 } : CmdWord).code ≠ 7 := by decide

/-- A close that is answered, at a client that has a key ready, and one that is not. -/
theorem witness_DrawsMatchFramesSent :
    let s := fresh .client (keys := [#v[0x01, 0x02, 0x03, 0x04]])
    (∃ t, exec (.close ⟨true, 0, none, []⟩) s = .next t ∧ s.conn.role = .client ∧ t.link.keys = []) ∧
      ∃ t, exec (.close ⟨true, 0, none, []⟩) (with' ({ · with closeSent := true }) (fresh .server)) = .next t ∧
        t.link.draws = 0 := ⟨⟨_, rfl, rfl, rfl⟩, _, rfl, rfl⟩

/-- For ConfigurationIsImmutable, StickyFlagsStay and OutputIsAppendOnly: a halted connection that has sent its close. -/
theorem witness_WholeMachine :
    let s := with' ({ · with closeSent := true, errorCode := 3 }) (fresh .server)
    isInit (.txPing []) = false ∧ s.conn.closeSent = true ∧ s.conn.errorCode ≠ 0 ∧
      (∃ t, exec (.txPing []) s = .next t) ∧
      ∃ t, step { s with inbox := [.command { code := 6 }] } = .next t :=
  ⟨rfl, rfl, by decide, ⟨_, rfl⟩, ⟨_, rfl⟩⟩

theorem witness_NoSecondCloseFrame :
    let s := with' ({ · with closeSent := true }) (fresh .client)
    let i := Instr.close ⟨true, 0, none, []⟩
    isInit i = false ∧ (∀ fin op p, i ≠ .txFrame fin op p) ∧ s.conn.closeSent = true ∧
      ∃ t, exec i s = .next t ∧ t.link.output = [.evShutdown] :=
  ⟨rfl, fun _ _ _ h => (by cases h), rfl, _, rfl, by decide⟩

end Sys2Proof.Machine.Tests
end

section
/-!
PROOFS. The length field in the spec's own terms: bytes of a length as quotients by powers of 2 (R222).
-/

namespace Sys2Proof

/-- Byte `i` of a length as a quotient, the form the statement of R222 uses. -/
theorem lengthByte_eq_ofNat_div (L i : Nat) : lengthByte L i = BitVec.ofNat 8 (L / 2 ^ (8 * i)) := by
  rw [lengthByte, Nat.shiftRight_eq_div_pow]

theorem lengthByte_zero (L : Nat) : lengthByte L 0 = BitVec.ofNat 8 L := rfl

/-- Settles O6: each clause is the length form of its range (`lenField_short`, `lenField_middle`, `lenField_long`), with
the bytes read as quotients. -/
theorem lengthFieldIsShortestAndBigEndian : Obligations.LengthFieldIsShortestAndBigEndian := by
  intro m L hL
  refine ⟨fun hShort => ?short, fun hAbove hMiddle => ?middle, fun hLong => ?long⟩
  case short => exact lenField_short hShort
  case middle =>
    rw [lenField_middle hAbove hMiddle, lengthByte_zero, lengthByte_eq_ofNat_div]
    rfl
  case long =>
    rw [lenField_long hLong hL, lengthByte_zero]
    simp only [lengthByte_eq_ofNat_div]
    rfl

end Sys2Proof
end

section
/-!
PROOFS. A received sequence in terms of its parts: the empty one, and one that is cut in two (R253, R148).
-/

namespace Sys2Proof.Machine

/-- The status of a receiving instruction, read off `errorCode` (R253). -/
theorem rxStatus_eq_ite (c : Conn) : rxStatus c = if c.errorCode = 0 then .ok else .halted := by
  by_cases h : c.errorCode = 0
  · rw [rxStatus_ok h, if_pos h]
  · rw [rxStatus, halted_eq_true h, if_pos rfl, if_neg h]

/-- Receiving nothing writes the status and clears the STATUS copy; the link is as before (R253). -/
theorem receive_nil {s : State} (hi : s.initialised = true) :
    receive [] s = .next (s.after s.conn [] (if s.conn.errorCode = 0 then .ok else .halted)) := by
  have hsame : s.link = { s.link with conn := s.conn, output := s.link.output ++ [] } := by rw [List.append_nil]
  rw [receive_next hi (rxBytes_nil s.link), received_eq_after hsame (rxStatus_eq_ite s.conn)]

/-- Receiving two sequences joined is receiving one and then the other: the second overwrites the status of the first
and reads nothing else that the first wrote but the link. -/
theorem receive_append (x y : List Byte) (s : State) :
    receive (x ++ y) s =
      match receive x s with
      | .next t => receive y t
      | .fault e => .fault e
      | .refused e => .refused e := by
  cases hi : s.initialised with
  | false => simp only [receive_beforeInit hi]
  | true =>
    cases hx : rxBytes x s.link with
    | next l => rw [receive_next hi hx]; simp [receive, hi, rxBytes_append_next hx, State.received]
    | fault e => simp [receive, hi, rxBytes_append, hx]
    | refused e => exact absurd hx (rxBytes_not_refused x s.link e)

end Sys2Proof.Machine

namespace Sys2Proof

/-- Settles O41: RX_CHUNK and RX_BYTE are both `receive`, so the empty chunk is `receive_nil` and a longer one is
`receive_append` cut after its first byte. -/
theorem chunkIsItsBytesInOrder : Obligations.ChunkIsItsBytesInOrder := by
  intro s b bs hi
  exact ⟨Machine.receive_nil hi, Machine.receive_append [b] bs s⟩

end Sys2Proof
end

section
/-!
PROOFS. Frames and their bytes, in both directions: which instruction an opcode selects, what the decoder reads from the
bytes of a frame, and what the bytes were when it has read one (R90 to R105, R111).
-/

namespace Sys2Proof

/-! ### Opcode classes (R11) -/

theorem isReserved_of_isControl {op : BitVec 4} (h : isControl op = true) : isReserved op = false := by
  revert op; decide

theorem isReserved_of_isData {op : BitVec 4} (h : isData op = true) : isReserved op = false := by
  revert op; decide

theorem isControl_of_isData {op : BitVec 4} (h : isData op = true) : isControl op = false := by
  revert op; decide

/-! ### The row an opcode selects -/

/-- A frame instruction's words, and the row it stands in. -/
theorem frameInstr_encode {op : BitVec 4} {f : Frame} {i : Instr} (h : frameInstr op f = some i) :
    encode i = .wire (f.bytes op) ∧ i.wireOpcode = some op := by
  unfold frameInstr at h
  split_ifs at h <;> (cases h; subst op; exact ⟨rfl, rfl⟩)

/-- A reserved instruction's words, its row, and that no operand makes it ill-formed. -/
theorem reservedInstr_encode {op : BitVec 4} {hd : Head} {i : Instr} (h : reservedInstr op hd = some i) :
    encode i = .wire (hd.bytes op) ∧ i.wireOpcode = some op ∧ i.wf = true := by
  unfold reservedInstr at h
  split_ifs at h <;> (cases h; subst op; exact ⟨rfl, rfl, rfl⟩)

/-- Exactly the reserved opcodes select a one-byte instruction (R96, R195). -/
theorem reservedInstr_isSome (op : BitVec 4) (hd : Head) : (reservedInstr op hd).isSome = isReserved op := by
  simp only [reservedInstr, apply_ite Option.isSome, Option.isSome_some, Option.isSome_none]
  clear hd; revert op; decide

/-- Exactly the defined opcodes select a whole frame (R95). -/
theorem frameInstr_isSome (op : BitVec 4) (f : Frame) : (frameInstr op f).isSome = !isReserved op := by
  simp only [frameInstr, apply_ite Option.isSome, Option.isSome_some, Option.isSome_none]
  clear f; revert op; decide

theorem reservedInstr_eq_none {op : BitVec 4} (h : isReserved op = false) (hd : Head) : reservedInstr op hd = none := by
  rw [← Option.not_isSome_iff_eq_none, reservedInstr_isSome, h]
  exact Bool.false_ne_true

/-- The operands take no part in whether an opcode selects an instruction (R111). -/
theorem reservedInstr_of_operands {op : BitVec 4} {hd : Head} {i : Instr} (h : reservedInstr op hd = some i)
    (hd' : Head) : ∃ j, reservedInstr op hd' = some j := by
  rw [← Option.isSome_iff_exists, reservedInstr_isSome, ← reservedInstr_isSome op hd, h]; rfl

theorem frameInstr_of_operands {op : BitVec 4} {f : Frame} {i : Instr} (h : frameInstr op f = some i) (f' : Frame) :
    ∃ j, frameInstr op f' = some j := by
  rw [← Option.isSome_iff_exists, frameInstr_isSome, ← frameInstr_isSome op f, h]; rfl

/-- The length limits a well-formed frame instruction meets (R90, R102). -/
theorem frameInstr_wf_iff {op : BitVec 4} {f : Frame} {i : Instr} (h : frameInstr op f = some i) :
    i.wf = true ↔ f.payload.length < 2 ^ 64 ∧ (isControl op = true → f.payload.length ≤ 125) := by
  obtain ⟨-, -, hwf⟩ := Machine.frameInstr_exec h Machine.State.reset
  rw [hwf]
  cases isControl op
  · simp [Frame.dataWf]
  · have hctl : f.ctrlWf = true ↔ f.payload.length ≤ 125 := decide_eq_true_iff
    simp only [if_true, forall_const, hctl]
    omega

/-- An instruction with bytes for words is a frame of a defined opcode, or byte 0 of a reserved one. -/
theorem encode_wire_cases {i : Instr} {bs : List Byte} (h : encode i = .wire bs) :
    (∃ op f, frameInstr op f = some i ∧ bs = f.bytes op) ∨
      ∃ op hd, reservedInstr op hd = some i ∧ bs = hd.bytes op := by
  cases i <;> cases h
  case cont f | text f | bin f | close f | ping f | pong f => exact .inl ⟨_, f, rfl, rfl⟩
  all_goals exact .inr ⟨_, _, rfl, rfl⟩

/-- A command word decodes to the command it was made from (R262). -/
theorem decodeCommand_encode {i : Instr} {w : CmdWord} (h : encode i = .command w) : decodeCommand w = .ok i := by
  cases i <;> cases h <;> rfl

/-! ### From the instruction to what the decoder reads -/

/-- Everything after byte 0 of a frame within its limits comes back, whatever follows it (R92 to R105). -/
theorem decodeRest_wire {op : BitVec 4} (f : Frame) (rest : List Byte) (hlen : f.payload.length < 2 ^ 64)
    (hctl : isControl op = true → f.payload.length ≤ 125) :
    decodeRest f.fin f.rsv op (lenField f.key.isSome f.payload.length ++ wireBody f.key f.payload ++ rest) =
      .ok (f, rest) := by
  obtain ⟨n, ext, hfield, hdec, hshort⟩ :=
    decodeLength_lenField f.key.isSome f.payload.length hlen (wireBody f.key f.payload ++ rest)
  have hnot : (isControl op && decide (126 ≤ n.toNat)) = false := by
    cases hc : isControl op
    · rfl
    · have := hshort (hctl hc); simp; omega
  simp only [hfield, List.cons_append, List.append_assoc, decodeRest, len7Of_byte1, maskOf_byte1, hnot, hdec,
    decodeBody_wireBody, Bool.false_eq_true, if_false]

/-- The bytes of a frame decode to its instruction, and what follows is left (R104). -/
theorem decodeFrame_frame {op : BitVec 4} {f : Frame} {i : Instr} (h : frameInstr op f = some i) (hwf : i.wf = true)
    (rest : List Byte) : decodeFrame (f.bytes op ++ rest) = .ok (i, rest) := by
  obtain ⟨hres, -, -⟩ := Machine.frameInstr_exec h Machine.State.reset
  obtain ⟨hlen, hctl⟩ := (frameInstr_wf_iff h).mp hwf
  simp only [Frame.bytes, wireFrame, List.cons_append, decodeFrame, opcodeOf_byte0, finOf_byte0, rsvOf_byte0,
    reservedInstr_eq_none hres, decodeRest_wire f rest hlen hctl, h]

/-- The one byte of a reserved opcode decodes to its instruction, and what follows is left (R195). -/
theorem decodeFrame_reserved {op : BitVec 4} {hd : Head} {i : Instr} (h : reservedInstr op hd = some i)
    (rest : List Byte) : decodeFrame (hd.bytes op ++ rest) = .ok (i, rest) := by
  simp only [Head.bytes, List.cons_append, List.nil_append, decodeFrame, opcodeOf_byte0, finOf_byte0, rsvOf_byte0, h]

/-! ### From what the decoder has read to the bytes -/

/-- What was read after byte 0 was the rest of a frame within its limits (R100 to R105). -/
theorem decodeRest_inv {fin : Bool} {rsv : BitVec 3} {op : BitVec 4} {bs rest : List Byte} {f : Frame}
    (h : decodeRest fin rsv op bs = .ok (f, rest)) :
    f.fin = fin ∧ f.rsv = rsv ∧ f.payload.length < 2 ^ 64 ∧ (isControl op = true → f.payload.length ≤ 125) ∧
      bs = lenField f.key.isSome f.payload.length ++ wireBody f.key f.payload ++ rest := by
  cases bs with
  | nil => cases h
  | cons b1 bs =>
    simp only [decodeRest] at h
    split_ifs at h with hc
    cases hd : decodeLength (len7Of b1) bs with
    | error e => rw [hd] at h; cases h
    | ok p =>
      obtain ⟨L, bs'⟩ := p
      rw [hd] at h
      obtain ⟨hbytes, hL, hshort⟩ := decodeLength_inv (maskOf b1) _ _ _ _ hd
      obtain ⟨hfin, hrsv, hkey, hlen, hbody⟩ := decodeBody_inv h
      refine ⟨hfin, hrsv, hlen ▸ hL, fun hctl => ?_, ?_⟩
      · rw [hlen]; exact hshort (by simp [hctl] at hc; omega)
      · rw [hkey, hlen, List.append_assoc, ← hbody, ← hbytes, byte1_fields]

/-- All that the frame decoder reads: byte 0 of a reserved opcode, or a whole frame within its limits. -/
theorem decodeFrame_inv {bs rest : List Byte} {i : Instr} (h : decodeFrame bs = .ok (i, rest)) :
    (∃ op hd, reservedInstr op hd = some i ∧ bs = hd.bytes op ++ rest) ∨
      ∃ op f, frameInstr op f = some i ∧ i.wf = true ∧ bs = f.bytes op ++ rest := by
  cases bs with
  | nil => cases h
  | cons b0 bs =>
    simp only [decodeFrame] at h
    split at h
    case h_1 hres =>
      cases h
      exact .inl ⟨_, _, hres, by rw [Head.bytes, byte0_fields]; rfl⟩
    case h_2 =>
      split at h
      · cases h
      · rename_i f rest' hrest
        split at h
        · rename_i hframe
          cases h
          obtain ⟨hfin, hrsv, hlen, hctl, hbytes⟩ := decodeRest_inv hrest
          refine .inr ⟨_, f, hframe, (frameInstr_wf_iff hframe).mpr ⟨hlen, hctl⟩, ?_⟩
          rw [Frame.bytes, wireFrame, hfin, hrsv, byte0_fields, hbytes]; rfl
        · cases h

/-! ### The obligations -/

/-- Settles O2: the words of an instruction are a frame or the byte of a reserved opcode, and each decodes before any
following bytes. -/
theorem frameEndsByCountingAlone : Obligations.FrameEndsByCountingAlone := by
  intro i bs rest hwf henc
  rcases encode_wire_cases henc with ⟨op, f, hf, rfl⟩ | ⟨op, hd, hr, rfl⟩
  · exact decodeFrame_frame hf hwf rest
  · exact decodeFrame_reserved hr rest

/-- Settles O1: bytes by O2 with nothing after them, a command word by its code. -/
theorem decodeInvertsEncode : Obligations.DecodeInvertsEncode := by
  intro i hwf
  cases henc : encode i with
  | wire bs => simpa [decode] using frameEndsByCountingAlone i bs [] hwf henc
  | command w => simp only [decode, decodeCommand_encode henc]

/-- Settles O3: by the inversion of the frame decoder. -/
theorem eachFrameHasOneEncoding : Obligations.EachFrameHasOneEncoding := by
  intro bs rest i h
  rcases decodeFrame_inv h with ⟨op, hd, hr, rfl⟩ | ⟨op, f, hf, hwf, rfl⟩
  · obtain ⟨henc, -, hwf⟩ := reservedInstr_encode hr
    exact ⟨hwf, _, henc, rfl⟩
  · exact ⟨hwf, _, (frameInstr_encode hf).1, rfl⟩

/-- Settles O4: each word is evaluated. -/
theorem writtenOutWordsDecode : Obligations.WrittenOutWordsDecode := by
  refine ⟨?_, ?_, ?_, ?_⟩ <;> decide

/-- Settles O5: the bytes read are those of a frame or of a reserved head (`decodeFrame_inv`); with the FIN and RSV of the
other byte 0 put in, they are the bytes of an instruction in the same row, which decodes before the same rest. -/
theorem lowFourBitsSelectTheRow : Obligations.LowFourBitsSelectTheRow := by
  intro b0 b0' bs rest i hop h
  rcases decodeFrame_inv h with ⟨op, hd, hr, hbytes⟩ | ⟨op, f, hf, hwf, hbytes⟩
  · obtain ⟨rfl, rfl⟩ := List.cons.inj hbytes
    rw [opcodeOf_byte0] at hop ⊢
    obtain ⟨j, hj⟩ := reservedInstr_of_operands hr ⟨finOf b0', rsvOf b0'⟩
    have hdec := decodeFrame_reserved hj bs
    rw [Head.bytes, hop, byte0_fields] at hdec
    obtain ⟨-, hrow, -⟩ := reservedInstr_encode hr
    obtain ⟨-, hrow', -⟩ := reservedInstr_encode hj
    exact ⟨hrow, j, hdec, hrow'.trans hrow.symm⟩
  · obtain ⟨rfl, rfl⟩ := List.cons.inj hbytes
    rw [opcodeOf_byte0] at hop ⊢
    obtain ⟨j, hj⟩ := frameInstr_of_operands hf ⟨finOf b0', rsvOf b0', f.key, f.payload⟩
    have hdec := decodeFrame_frame hj ((frameInstr_wf_iff hj).mpr ((frameInstr_wf_iff hf).mp hwf)) rest
    rw [Frame.bytes, wireFrame, hop, byte0_fields] at hdec
    obtain ⟨-, hrow⟩ := frameInstr_encode hf
    exact ⟨hrow, j, hdec, (frameInstr_encode hj).2.trans hrow.symm⟩

end Sys2Proof
end

section
/-!
PROOFS. The mask and the shape of an encoded frame (R94, R220 to R227).
-/

namespace Sys2Proof

/-- Byte `i` of a mask started at key index `j` takes the key byte `i` places on, modulo 4 (R224). -/
theorem getElem?_maskFrom (k : Key) (j : BitVec 2) (p : List Byte) (i : Nat) (h : i < p.length) :
    (maskFrom k j p)[i]? = some (p[i] ^^^ keyByte k (j + BitVec.ofNat 2 i)) := by
  induction p generalizing j i with
  | nil => cases h
  | cons b bs ih =>
    cases i with
    | zero => simp [maskFrom]
    | succ i =>
      have hidx : j + 1 + BitVec.ofNat 2 i = j + BitVec.ofNat 2 (i + 1) := by
        rw [BitVec.add_assoc, BitVec.ofNat_add, BitVec.add_comm (1 : BitVec 2)]; rfl
      rw [← hidx]
      exact ih (j + 1) i (Nat.lt_of_succ_lt_succ h)

/-- The base length of every length field tells the size of the header (R94). -/
theorem headerBytes_lenField (m : Bool) (L : Nat) :
    ∃ n ext, lenField m L = byte1 m n :: ext ∧ headerBytes m n = 2 + ext.length + if m then 4 else 0 := by
  unfold lenField
  split
  · rename_i hShort
    obtain ⟨h6, h7⟩ := ofNat_len7_ne hShort
    exact ⟨_, _, rfl, by simp only [headerBytes, if_neg h6, if_neg h7]; rfl⟩
  · split <;> exact ⟨_, _, rfl, rfl⟩

theorem wireBody_length (key : Option Key) (p : List Byte) :
    (wireBody key p).length = (if key.isSome then 4 else 0) + p.length := by
  cases key <;> simp [wireBody]

/-- Settles O7: the mask starts at key index 0, so byte `i` takes the key byte numbered by the low two bits of `i`. -/
theorem maskUsesKeyByteIMod4 : Obligations.MaskUsesKeyByteIMod4 := by
  intro k p
  refine ⟨mask_length k p, fun i h => ?_⟩
  rw [mask, getElem?_maskFrom k 0 p i h]
  simp [keyByte]

/-- Settles O8: masking twice from one key index gives the bytes back, so from index 0. -/
theorem maskIsItsOwnInverse : Obligations.MaskIsItsOwnInverse := fun k p => maskFrom_maskFrom k 0 p

/-- Settles O9: byte 0 and byte 1 from their fields, and the body as the tail of the frame, so that its start is found by
counting back from the end. -/
theorem encodedFrameShape : Obligations.EncodedFrameShape := by
  intro role fin op key p
  obtain ⟨n, ext, hfield, hsize⟩ := headerBytes_lenField (sentKey role key).isSome p.length
  have hbytes : encodeTx role fin op key p =
      byte0 fin 0 op :: byte1 (sentKey role key).isSome n :: (ext ++ wireBody (sentKey role key) p) := by
    rw [encodeTx, wireFrame, hfield]; rfl
  have hlast : ∀ k : Nat, (wireBody (sentKey role key) p).length = k →
      (ext ++ wireBody (sentKey role key) p).drop ((ext ++ wireBody (sentKey role key) p).length - k) =
        wireBody (sentKey role key) p := by
    rintro k rfl
    rw [List.length_append, Nat.add_sub_cancel, List.drop_left]
  refine ⟨_, _, _, hbytes, finOf_byte0 _ _ _, rsvOf_byte0 _ _ _, opcodeOf_byte0 _ _ _, ?_, ?_, ?_, ?_⟩
  · rw [maskOf_byte1]; cases role <;> simp [sentKey]
  · rw [hbytes, maskOf_byte1, len7Of_byte1, hsize]
    simp only [List.length_cons, List.length_append, wireBody_length]
    omega
  · rintro rfl; exact hlast p.length (by simp [wireBody, sentKey])
  · rintro rfl; exact hlast (4 + p.length) (by simp [wireBody, sentKey])

end Sys2Proof
end

section
/-!
PROOFS. The host commands (R250 to R261): what each one answers, and all that the three outbound ones can do to the link.
-/

namespace Sys2Proof.Machine

/-! ### Commands and INIT -/

theorem runCommand_beforeInit {f : Link → Link × Status} {s : State} (h : s.initialised = false) :
    runCommand f s = .refused .beforeInit := by simp [runCommand, h]

/-- All that a command can do when it answers a next state. -/
theorem runCommand_cases {f : Link → Link × Status} {s t : State} (h : runCommand f s = .next t) :
    s.initialised = true ∧ t = { s with link := (f s.link).1, status := (f s.link).2, reply := none } := by
  unfold runCommand at h
  split at h
  · exact ⟨‹_›, (Host.Outcome.next.inj h).symm⟩
  · cases h

/-- A command that refuses: only the status is written, and the STATUS copy cleared (R258). -/
theorem runCommand_refusing {f : Link → Link × Status} {s : State} {st : Status} (hi : s.initialised = true)
    (hf : f s.link = (s.link, st)) : runCommand f s = .next (s.after s.conn [] st) :=
  runCommand_after hi (by rw [hf, List.append_nil])

/-- A command that sends: one frame, one draw (R226, R230). -/
theorem runCommand_sending {f : Link → Link × Status} {s : State} {fin : Bool} {op : BitVec 4} {p : List Byte}
    (hi : s.initialised = true) (hf : f s.link = (sendFrame fin op p s.link, .ok)) :
    runCommand f s =
      .next (s.afterSend s.conn [.tx (encodeTx s.conn.role fin op (drawFor s.link).1 p)] .ok) :=
  runCommand_afterSend hi (by rw [hf, sendFrame_eq])

/-- STATUS writes the status, the copy and the model's counter, and nothing of the link (R261). -/
theorem execStatus_cases {s t : State} (h : execStatus s = .next t) : s.initialised = true ∧ t.link = s.link := by
  unfold execStatus at h
  split at h
  · cases h; exact ⟨‹_›, rfl⟩
  · cases h

/-- Before the first INIT every other instruction is refused: each is `receive`, `runCommand` or STATUS (R320). -/
theorem exec_beforeInit {s : State} {i : Instr} (h : s.initialised = false) (hi : isInit i = false) :
    exec i s = .refused .beforeInit := by
  cases i
  case init => cases hi
  case status => exact if_neg (by simp [h])
  case txFrame fin op p => exact (runCommand_beforeInit h : execTxFrame fin op p s = _)
  case txClose p => exact (runCommand_beforeInit h : execTxClose p s = _)
  case txPing p => exact (runCommand_beforeInit h : execTxPing p s = _)
  all_goals exact receive_beforeInit h

/-! ### All that an outbound command can do -/

/-- The link after an outbound command: as before, or with one frame sent, which is a close only when TX_FRAME was asked
for it, or with the first close of the connection sent (R255 to R258, R32). -/
inductive OutboundOut (i : Instr) (l l' : Link) : Prop where
  | refuses (h : l' = l)
  | sends (fin : Bool) (op : BitVec 4) (p : List Byte) (h : l' = sendFrame fin op p l)
      (hop : i = .txFrame fin op p ∨ op ≠ 0x8)
  | closes (p : List Byte) (first : l.conn.closeSent = false)
      (h : l' = { sendFrame true 0x8 p l with conn := { l.conn with closeSent := true } })

theorem outbound_out {i : Instr} {s t : State} (ho : isOutbound i = true) (h : exec i s = .next t) :
    s.initialised = true ∧ OutboundOut i s.link t.link := by
  cases i <;> simp only [isOutbound, Bool.false_eq_true] at ho
  case txFrame fin op p =>
    obtain ⟨hi, rfl⟩ := runCommand_cases (show execTxFrame fin op p s = _ from h)
    refine ⟨hi, ?_⟩
    dsimp only
    split_ifs
    · exact .refuses rfl
    · exact .refuses rfl
    · exact .sends fin op p rfl (.inl rfl)
  case txClose p =>
    obtain ⟨hi, rfl⟩ := runCommand_cases (show execTxClose p s = _ from h)
    refine ⟨hi, ?_⟩
    dsimp only
    split_ifs with hc hp
    · exact .refuses rfl
    · exact .refuses rfl
    · exact .closes p (by simpa using hc) (by simp)
  case txPing p =>
    obtain ⟨hi, rfl⟩ := runCommand_cases (show execTxPing p s = _ from h)
    refine ⟨hi, ?_⟩
    dsimp only
    split_ifs
    · exact .refuses rfl
    · exact .sends true 0x9 p rfl (.inr (by decide))

/-- Of the Connection an outbound command writes `closeSent` alone, and never clears it (R230, R256). -/
theorem OutboundOut.conn {i : Instr} {l l' : Link} (h : OutboundOut i l l') :
    l'.conn = { l.conn with closeSent := l'.conn.closeSent } ∧
      (l.conn.closeSent = true → l'.conn.closeSent = true) := by
  cases h with
  | refuses h => subst h; exact ⟨rfl, id⟩
  | sends fin op p h hop => subst h; rw [sendFrame_conn]; exact ⟨rfl, id⟩
  | closes p first h => subst h; exact ⟨rfl, fun _ => rfl⟩

/-- An outbound command draws one key for the frame it sends (R226). -/
theorem OutboundOut.drew {i : Instr} {l l' : Link} (h : OutboundOut i l l') : Drew l l' := by
  cases h with
  | refuses h => subst h; exact .conn _ rfl
  | sends fin op p h hop => subst h; exact sendFrame_drew fin op p l
  | closes p first h =>
    subst h; exact (sendFrame_drew true 0x8 p l).trans (.conn _ (by simp))

/-- Once `closeSent` is set, only a TX_FRAME puts a close frame on TX (R32, R256, R328). -/
theorem OutboundOut.noSecondClose {i : Instr} {l l' : Link} (h : OutboundOut i l l')
    (hi : ∀ fin op p, i ≠ .txFrame fin op p) (hc : l.conn.closeSent = true) :
    ∃ out, l'.output = l.output ++ out ∧ ∀ o ∈ out, isCloseFrame o = false := by
  cases h with
  | refuses h => subst h; exact ⟨[], by simp, by simp⟩
  | sends fin op p h hop =>
    subst h
    refine ⟨_, sendFrame_output fin op p l, ?_⟩
    simp only [List.mem_singleton, forall_eq]
    exact encodeTx_not_close (hop.resolve_left (hi fin op p))
  | closes p first h => rw [first] at hc; cases hc

end Sys2Proof.Machine

namespace Sys2Proof

open Machine

/-- Settles O38: the buffer is the one INIT fills with unspecified bytes. -/
theorem initSetsEveryField : Obligations.InitSetsEveryField := fun _ _ _ _ => ⟨_, rfl⟩

/-- Settles O39: every other instruction is `receive`, `runCommand` or STATUS, and each of these refuses. -/
theorem nothingButInitBeforeInit : Obligations.NothingButInitBeforeInit := fun _ _ => exec_beforeInit

/-- Settles O43: admission in its order, then one frame. -/
theorem txFrameSendsOrRefuses : Obligations.TxFrameSendsOrRefuses := by
  intro s fin op p hi
  simp only [exec, execTxFrame]
  refine ⟨fun hres => ?_, fun hctl hlen => ?_, fun hres hfits => ?_⟩
  · exact runCommand_refusing hi (if_pos hres)
  · exact runCommand_refusing hi (by simp [isReserved_of_isControl hctl, hctl, Config.ctrlMax, hlen])
  · refine runCommand_sending hi ?_
    cases hctl : isControl op
    · simp [hres]
    · have hnot : ¬Config.ctrlMax < p.length := Nat.not_lt.mpr (hfits hctl)
      simp [hres, hnot]

/-- Settles O44: `closeSent` is judged first, then the length, then one close is sent. -/
theorem txCloseSendsOnce : Obligations.TxCloseSendsOnce := by
  intro s p hi
  simp only [exec, execTxClose]
  refine ⟨fun hsent => ?_, fun hfirst hlen => ?_, fun hfirst hfits => ?_⟩
  · exact runCommand_refusing hi (if_pos hsent)
  · exact runCommand_refusing hi (by simp [hfirst, Config.ctrlMax, hlen])
  · refine runCommand_afterSend hi ?_
    simp only [hfirst, Bool.false_eq_true, if_false, if_neg (show ¬Config.ctrlMax < p.length from Nat.not_lt.mpr hfits),
      sendFrame_eq]

/-- Settles O45: the length is judged, then one ping is sent. -/
theorem txPingSends : Obligations.TxPingSends := by
  intro s p hi
  simp only [exec, execTxPing]
  exact ⟨fun hlen => runCommand_refusing hi (if_pos hlen),
    fun hfits => runCommand_sending hi (if_neg (Nat.not_lt.mpr hfits))⟩

/-- Settles O47: the copy is the Connection with the buffer at and above `ctrlLen` replaced. -/
theorem statusCopiesEveryField : Obligations.StatusCopiesEveryField := by
  intro s hi
  refine ⟨statusCopy s.freeReads s.conn, if_pos hi, rfl, fun i h hlt => ?_⟩
  simp [statusCopy, unspecifiedFrom, hlt]

/-- Settles O48: admission reads the operands and `closeSent`, which agree, and the frame that is sent depends on the role
and the key source (`drawFor_congr`), which agree. -/
theorem outboundReadsOnlyRoleAndCloseSent : Obligations.OutboundReadsOnlyRoleAndCloseSent := by
  intro s s' i ho hi hi' hrole hsent hkeys hdraws
  obtain ⟨hkey, -, -⟩ := drawFor_congr s.link s'.link hrole hkeys hdraws
  have hkeep : s'.conn = { s'.conn with closeSent := s.conn.closeSent } := by rw [hsent]
  cases i <;> simp only [isOutbound, Bool.false_eq_true] at ho
  case txFrame fin op p =>
    obtain ⟨hreserved, hoversize, hsends⟩ := txFrameSendsOrRefuses s fin op p hi
    obtain ⟨hreserved', hoversize', hsends'⟩ := txFrameSendsOrRefuses s' fin op p hi'
    by_cases hres : isReserved op = true
    · exact ⟨_, _, [], hreserved hres, hreserved' hres, rfl, rfl, rfl, rfl, hkeep⟩
    by_cases hbig : isControl op = true ∧ 125 < p.length
    · exact ⟨_, _, [], hoversize hbig.1 hbig.2, hoversize' hbig.1 hbig.2, rfl, rfl, rfl, rfl, hkeep⟩
    · have hdef : isReserved op = false := by simpa using hres
      have hfits : isControl op = true → p.length ≤ 125 := fun hc => by
        by_contra hlen; exact hbig ⟨hc, by omega⟩
      exact ⟨_, _, _, hsends hdef hfits, hsends' hdef hfits, rfl, rfl, by rw [hrole, hkey]; rfl, rfl, hkeep⟩
  case txClose p =>
    obtain ⟨halready, hoversize, hsends⟩ := txCloseSendsOnce s p hi
    obtain ⟨halready', hoversize', hsends'⟩ := txCloseSendsOnce s' p hi'
    cases hc : s.conn.closeSent
    · have hc' : s'.conn.closeSent = false := hsent ▸ hc
      rcases Nat.lt_or_ge 125 p.length with hlen | hlen
      · exact ⟨_, _, [], hoversize hc hlen, hoversize' hc' hlen, rfl, rfl, rfl, rfl, hkeep⟩
      · exact ⟨_, _, _, hsends hc hlen, hsends' hc' hlen, rfl, rfl, by rw [hrole, hkey]; rfl, rfl, rfl⟩
    · exact ⟨_, _, [], halready hc, halready' (hsent ▸ hc), rfl, rfl, rfl, rfl, hkeep⟩
  case txPing p =>
    obtain ⟨hoversize, hsends⟩ := txPingSends s p hi
    obtain ⟨hoversize', hsends'⟩ := txPingSends s' p hi'
    rcases Nat.lt_or_ge 125 p.length with hlen | hlen
    · exact ⟨_, _, [], hoversize hlen, hoversize' hlen, rfl, rfl, rfl, rfl, hkeep⟩
    · exact ⟨_, _, _, hsends hlen, hsends' hlen, rfl, rfl, by rw [hrole, hkey]; rfl, rfl, hkeep⟩

end Sys2Proof
end

section
/-!
PROOFS. What every instruction and every step keeps (R36 to R40, R73, R226, R302): each instruction is a byte sequence, an
outbound command, INIT or STATUS (`exec_kinds`), and each of these has one lemma that says what it can do.
-/

namespace Sys2Proof.Machine

/-! ### Receiving instructions -/

/-- An instruction that feeds bytes is `receive` of those bytes (R252, R253; log entry 6). -/
theorem exec_of_receivedBytes {i : Instr} {bs : List Byte} (h : receivedBytes i = some bs) (s : State) :
    exec i s = receive bs s := by
  cases i <;> cases h <;> rfl

/-- The answer of a receiving instruction, with its status read off `errorCode` (R253). -/
theorem received_eq (s : State) (l : Link) :
    s.received l = { s with link := l, status := if l.conn.errorCode = 0 then .ok else .halted, reply := none } := by
  rw [State.received, rxStatus_eq_ite]

/-- A halted connection receives nothing (R286). -/
theorem receive_halted {s : State} (hi : s.initialised = true) (herr : s.conn.errorCode ≠ 0) (bs : List Byte) :
    receive bs s = .next (s.after s.conn [] .halted) := by
  rw [receive_next hi (rxBytes_halted herr bs),
    received_eq_after (c := s.conn) (o := []) (by rw [List.append_nil])]
  rw [rxStatus_eq_ite, if_neg herr]

/-- Chunks received one after the other are received as one. -/
theorem runChunks_eq_receive (c : List Byte) (cs : List (List Byte)) (s : State) :
    runChunks (c :: cs) s = receive (c :: cs).flatten s := by
  have hchunk : exec (.rxChunk c) s = receive c s := rfl
  induction cs generalizing c s with
  | nil =>
    rw [List.flatten_singleton, runChunks, hchunk]
    cases receive c s <;> rfl
  | cons c' cs ih =>
    rw [List.flatten_cons, receive_append, runChunks, hchunk]
    cases receive c s with
    | next t => exact ih c' t rfl
    | fault e => rfl
    | refused e => rfl

/-! ### Invariants -/

/-- INIT leaves a Connection that meets the invariants, whatever its arguments and the buffer (R42). -/
theorem initConn_inv (role : Role) (maxPayload : Option (BitVec 64)) (pongNotify : Bool) (buf : Vector Byte 125) :
    (initConn role maxPayload pongNotify buf).Inv := by
  refine inv_at_start ⟨Nat.zero_le _, Nat.zero_le _, fun h => ?_, Nat.zero_le _⟩ rfl
  cases maxPayload with
  | none => rfl
  | some v => cases h

/-- No invariant speaks of `closeSent`. -/
theorem Conn.Inv.closeSent {c : Conn} (h : c.Inv) (b : Bool) : ({ c with closeSent := b } : Conn).Inv :=
  ⟨h.1, h.2, h.3, h.4, h.5, h.6, h.7, h.8, h.9, h.10, h.11, h.12⟩

theorem receive_inv {bs : List Byte} {s t : State} (hs : s.Inv) (h : receive bs s = .next t) : t.Inv := by
  obtain ⟨hi, l, hl, rfl⟩ := receive_cases h
  obtain ⟨l', hl', hinv⟩ := rxBytes_inv bs s.link (hs hi)
  cases hl.symm.trans hl'
  exact fun _ => hinv

/-- Every instruction keeps the invariants (R36 to R40). -/
theorem exec_inv {i : Instr} {s t : State} (hs : s.Inv) (h : exec i s = .next t) : t.Inv := by
  rcases exec_kinds i with ⟨bs, -, hrx⟩ | hout | hinit | rfl
  · exact receive_inv hs ((hrx s).symm.trans h)
  · obtain ⟨hi, hlink⟩ := outbound_out hout h
    intro _
    rw [State.conn, hlink.conn.1]
    exact (hs hi).closeSent _
  · cases i <;> cases hinit
    cases h
    exact fun _ => initConn_inv _ _ _ _
  · obtain ⟨hi, hlink⟩ := execStatus_cases h
    intro _
    rw [State.conn, hlink]
    exact hs hi

theorem receive_ne_fault {bs : List Byte} {s : State} (hs : s.Inv) (e : Fault) : receive bs s ≠ .fault e := by
  cases hi : s.initialised
  · simp [receive_beforeInit hi]
  · obtain ⟨l, hl, -⟩ := rxBytes_inv bs s.link (hs hi)
    simp [receive_next hi hl]

theorem runCommand_ne_fault (f : Link → Link × Status) (s : State) (e : Fault) : runCommand f s ≠ .fault e := by
  unfold runCommand; split <;> simp

theorem execStatus_ne_fault (s : State) (e : Fault) : execStatus s ≠ .fault e := by
  unfold execStatus; split <;> simp

/-- From the invariants no instruction faults (log entry 8). -/
theorem exec_ne_fault {s : State} (hs : s.Inv) (i : Instr) (e : Fault) : exec i s ≠ .fault e := by
  cases i
  case init => exact fun h => by cases h
  case status => exact execStatus_ne_fault s e
  case txFrame fin op p => exact (runCommand_ne_fault _ s e : execTxFrame fin op p s ≠ _)
  case txClose p => exact (runCommand_ne_fault _ s e : execTxClose p s ≠ _)
  case txPing p => exact (runCommand_ne_fault _ s e : execTxPing p s ≠ _)
  all_goals exact receive_ne_fault hs e

/-! ### Configuration, flags, output and key source -/

/-- Every instruction but INIT keeps the configuration, a `closeSent` that is set and an `errorCode` that is not 0
(R40, R288). -/
theorem exec_keeps {i : Instr} {s t : State} (hi : isInit i = false) (h : exec i s = .next t) :
    s.conn.Keeps t.conn ∧ (s.conn.errorCode ≠ 0 → t.conn.errorCode = s.conn.errorCode) := by
  rcases exec_kinds i with ⟨bs, -, hrx⟩ | hout | hinit | rfl
  · obtain ⟨-, l, hl, rfl⟩ := receive_cases ((hrx s).symm.trans h)
    have hseq := rxBytes_seqOut hl
    exact ⟨hseq.keeps, hseq.errorCode⟩
  · obtain ⟨-, hlink⟩ := outbound_out hout h
    obtain ⟨hconn, hsticky⟩ := hlink.conn
    refine ⟨⟨?_, ?_, ?_, ?_, hsticky⟩, fun _ => ?_⟩ <;> rw [State.conn, hconn]
  · rw [hi] at hinit; cases hinit
  · obtain ⟨-, hlink⟩ := execStatus_cases h
    rw [State.conn, State.conn, hlink]
    exact ⟨.rfl' _, fun _ => rfl⟩

/-- Every instruction but INIT draws one key for each frame it sends (R226). -/
theorem exec_drew {i : Instr} {s t : State} (hi : isInit i = false) (h : exec i s = .next t) : Drew s.link t.link := by
  rcases exec_kinds i with ⟨bs, -, hrx⟩ | hout | hinit | rfl
  · obtain ⟨-, l, hl, rfl⟩ := receive_cases ((hrx s).symm.trans h)
    exact rxBytes_drew hl
  · exact (outbound_out hout h).2.drew
  · rw [hi] at hinit; cases hinit
  · obtain ⟨-, hlink⟩ := execStatus_cases h
    rw [hlink]; exact .conn _ rfl

end Sys2Proof.Machine

namespace Sys2Proof

open Machine

/-- Settles O54: a step is idle or runs one instruction, and every instruction keeps the invariants. -/
theorem stepKeepsInvariants : Obligations.StepKeepsInvariants := by
  intro s t hs h
  rcases step_cases s with hidle | ⟨i, q, hrun⟩ | ⟨r, hrefuse⟩
  · cases hidle.symm.trans h; exact hs
  · exact exec_inv (s := { s with inbox := q }) hs (hrun.symm.trans h)
  · cases hrefuse.symm.trans h

/-- Settles O55: bytes are received whole under the invariants, and nothing else can fault. -/
theorem noFaultUnderInvariants : Obligations.NoFaultUnderInvariants := by
  intro s e hs
  refine ⟨fun h => ?_, fun i => exec_ne_fault hs i e⟩
  rcases step_cases s with hidle | ⟨i, q, hrun⟩ | ⟨r, hrefuse⟩
  · cases hidle.symm.trans h
  · exact exec_ne_fault (s := { s with inbox := q }) hs i e (hrun.symm.trans h)
  · cases hrefuse.symm.trans h

/-- Settles O53: the reset Connection is one that INIT leaves. -/
theorem resetMeetsInvariants : Obligations.ResetMeetsInvariants := fun _ => reset_conn ▸ initConn_inv _ _ _ _

/-- Settles O56: by what every instruction but INIT keeps (`exec_keeps`). -/
theorem configurationIsImmutable : Obligations.ConfigurationIsImmutable := by
  intro s t i hi h
  obtain ⟨hkeeps, -⟩ := exec_keeps hi h
  exact ⟨hkeeps.role, hkeeps.maxPayloadEn, hkeeps.maxPayloadBytes, hkeeps.pongNotify⟩

/-- Settles O57: by what every instruction but INIT keeps (`exec_keeps`). -/
theorem stickyFlagsStay : Obligations.StickyFlagsStay := by
  intro s t i hi h
  obtain ⟨hkeeps, herr⟩ := exec_keeps hi h
  exact ⟨hkeeps.closeSent, herr⟩

/-- Settles O59: by the induction over received bytes in `rxBytes_seqOut`, and by what an outbound command can send. -/
theorem noSecondCloseFrame : Obligations.NoSecondCloseFrame := by
  intro s t i hi hnot hsent h
  rcases exec_kinds i with ⟨bs, -, hrx⟩ | hout | hinit | rfl
  · obtain ⟨-, l, hl, rfl⟩ := receive_cases ((hrx s).symm.trans h)
    obtain ⟨out, happend, hnone⟩ := (rxBytes_seqOut hl).output
    exact ⟨out, happend, hnone hsent⟩
  · exact (outbound_out hout h).2.noSecondClose hnot hsent
  · rw [hi] at hinit; cases hinit
  · obtain ⟨-, hlink⟩ := execStatus_cases h
    exact ⟨[], by rw [hlink, List.append_nil], by simp⟩

/-- Settles O60: INIT leaves the output and the key source alone, and `exec_drew` has every other instruction. -/
theorem drawsMatchFramesSent : Obligations.DrawsMatchFramesSent := by
  intro s t i h
  cases hi : isInit i
  · exact (exec_drew hi h).source
  · cases i <;> cases hi
    cases h
    exact ⟨[], by simp, fun _ => ⟨rfl, rfl⟩, fun _ => ⟨rfl, by simp⟩⟩

/-- Settles O58: the idle step appends nothing, and every instruction appends (O60). -/
theorem outputIsAppendOnly : Obligations.OutputIsAppendOnly := by
  intro s t h
  rcases step_cases s with hidle | ⟨i, q, hrun⟩ | ⟨r, hrefuse⟩
  · cases hidle.symm.trans h; exact ⟨[], by simp⟩
  · obtain ⟨out, happend, -⟩ := drawsMatchFramesSent _ t i (hrun.symm.trans h)
    exact ⟨out, happend⟩
  · cases hrefuse.symm.trans h

/-- Settles O24: every receiving instruction is `receive` of its bytes, and a halted decoder drops them. -/
theorem haltedDecoderDropsBytes : Obligations.HaltedDecoderDropsBytes := by
  intro s i bs hi herr hbytes
  rw [exec_of_receivedBytes hbytes, receive_halted hi herr]

/-- Settles O40: the first part is `exec_of_receivedBytes`; the second, that under the invariants every byte sequence is
received whole (`rxBytes_inv`) and keeps the configuration (`rxBytes_seqOut`). -/
theorem receptionCompletes : Obligations.ReceptionCompletes := by
  refine ⟨fun s i bs h => exec_of_receivedBytes h s, fun s bs hi hinv => ?_⟩
  obtain ⟨l, hl, -⟩ := rxBytes_inv bs s.link hinv
  have hkeeps := (rxBytes_seqOut hl).keeps
  exact ⟨_, receive_next hi hl, received_eq s l, hkeeps.role, hkeeps.maxPayloadEn, hkeeps.maxPayloadBytes,
    hkeeps.pongNotify⟩

/-- Settles O42: by induction over the chunks, cutting the joined sequence after the first one (`receive_append`). -/
theorem chunkBoundariesCarryNoMeaning : Obligations.ChunkBoundariesCarryNoMeaning :=
  fun s c cs _ => runChunks_eq_receive c cs s

end Sys2Proof
end

section
/-!
PROOFS. One received byte: the next state each step rule gives (R131 to R147), and what holds of any byte (R75, R130,
R283).
-/

namespace Sys2Proof.Machine

/-! ### From a step rule to the next state -/

/-- A byte at a step where a rule applies (R252). -/
theorem State.At.rxByte {s : State} {d : DecodeStep} (h : s.At d) (hr : ruleApplies s.conn = true) (b : Byte) :
    exec (.rxByte b) s = .next (s.received (stepRule b s.link)) :=
  receive_next h.initialised ((rxBytes_singleton b s.link).trans (rxByte_rule h.noError hr))

/-- A byte that raises a violation (R283). -/
theorem received_raiseViolation (s : State) (v : Violation) :
    s.received (raiseViolation v s.link) =
      s.after { s.conn with errorCode := violationCode v } [.evError (violationCode v)] .halted :=
  received_eq_after rfl (by cases v <;> rfl)

/-- A byte that writes the Connection and emits nothing. -/
theorem received_quiet {s : State} {c : Conn} (h : c.errorCode = 0) :
    s.received { s.link with conn := c } = s.after c [] .ok :=
  received_eq_after (by rw [List.append_nil]) (rxStatus_ok h)

/-! ### Header complete -/

theorem headerLengthDone_masked {l : Link} (h : maskOf l.conn.hdrByte1 = true) :
    headerLengthDone l = { l with conn := { l.conn with decodeStep := .key, fieldIdx := 0 } } := if_pos h

theorem headerLengthDone_unmasked {l : Link} (h : maskOf l.conn.hdrByte1 = false) :
    headerLengthDone l = enterData l := if_neg (by simp [h])

theorem enterData_nonempty {l : Link} (h : l.conn.payloadBytesRemaining ≠ 0) :
    enterData l = { l with conn := { l.conn with maskCounter := 0, ctrlLen := 0, decodeStep := .data } } := if_neg h

theorem enterData_empty {l : Link} (h : l.conn.payloadBytesRemaining = 0) :
    enterData l = frameEnd { l with conn := { l.conn with maskCounter := 0, ctrlLen := 0 } } := if_pos h

/-- A frame without payload ends where DATA would begin (R144, R146, R177). -/
theorem received_enterData_empty {s : State} {c : Conn} (herr : c.errorCode = 0) (hrole : c.role = s.conn.role)
    (hop : isReserved (opcodeOf c.hdrByte0) = false) (h : c.payloadBytesRemaining = 0) :
    s.received (enterData { s.link with conn := c }) = s.afterEnd { c with maskCounter := 0, ctrlLen := 0 } [] := by
  rw [enterData_empty (by exact h)]
  exact received_frameEnd herr hrole hop (Nat.zero_le _) (fun _ => by simp [ctrlPayload])

/-! ### The violation of byte 1 (R133 to R135, R284) -/

theorem lengthViolation_mask {b : Byte} {c : Conn} (h : maskOf b ≠ expectedMask c.role) :
    lengthViolation b c = some .maskDirection := if_pos h

theorem lengthViolation_control {b : Byte} {c : Conn} (hm : maskOf b = expectedMask c.role)
    (hc : isControl (opcodeOf c.hdrByte0) = true) (h : 126 ≤ (len7Of b).toNat) :
    lengthViolation b c = some .controlTooLong := by simp [lengthViolation, hm, hc, h]

theorem lengthViolation_tooLarge {b : Byte} {c : Conn} (hm : maskOf b = expectedMask c.role)
    (h : (len7Of b).toNat ≤ 125) (he : exceeds c ((len7Of b).zeroExtend 64) = true) :
    lengthViolation b c = some .payloadTooLarge := by
  simp only [lengthViolation, hm, he, ne_eq, not_true_eq_false, if_false]
  rw [if_neg (by simp; omega), if_pos (by simp [h])]

/-- A received byte 1 that passes the checks. -/
theorem lengthViolation_accepted {b : Byte} {c : Conn} (hm : maskOf b = expectedMask c.role)
    (hc : isControl (opcodeOf c.hdrByte0) = true → (len7Of b).toNat ≤ 125)
    (he : (len7Of b).toNat ≤ 125 → exceeds c ((len7Of b).zeroExtend 64) = false) : lengthViolation b c = none := by
  have h := lengthViolation_none hm hc he
  rwa [byte1_fields] at h

theorem lengthRule_violation {b : Byte} {l : Link} {v : Violation} (h : lengthViolation b l.conn = some v) :
    lengthRule b l = raiseViolation v l := by simp only [lengthRule, h]

/-- The maximum judged on a base length (R34). -/
theorem exceeds_zeroExtend_iff (c : Conn) (n : BitVec 7) :
    exceeds c (n.zeroExtend 64) = true ↔ c.maxPayloadEn = true ∧ c.maxPayloadBytes.toNat < n.toNat := by
  have hn := n.isLt
  simp only [exceeds, Bool.and_eq_true, decide_eq_true_eq, BitVec.lt_def, BitVec.toNat_setWidth]
  rw [Nat.mod_eq_of_lt (by omega)]

/-! ### The last byte of an extended length (R139, R141) -/

/-- The three outcomes of the last length byte, in the order the spec judges them: non-minimal, too large, accepted. -/
theorem received_lastLengthByte {s : State} {b : Byte} {v : BitVec 64} {least : Nat} (hleast : 0 < least)
    (herr : s.conn.errorCode = 0) (hv : shiftIn s.conn.hdrExtLen b = v) :
    (v.toNat < least →
        s.received (lastLengthByte least b s.link) =
          s.after { s.conn with errorCode := 3 } [.evError 3] .halted) ∧
      (least ≤ v.toNat → exceeds s.conn v = true →
        s.received (lastLengthByte least b s.link) =
          s.after { s.conn with errorCode := 5 } [.evError 5] .halted) ∧
      (least ≤ v.toNat → exceeds s.conn v = false →
        s.received (lastLengthByte least b s.link) =
          s.after
            (if maskOf s.conn.hdrByte1 then
              { s.conn with hdrExtLen := v, payloadBytesRemaining := v, decodeStep := .key, fieldIdx := 0 }
            else
              { s.conn with
                hdrExtLen := v
                payloadBytesRemaining := v
                maskCounter := 0
                ctrlLen := 0
                decodeStep := .data })
            [] .ok) := by
  have hraise : ∀ e, extLenViolation least v s.conn = some e →
      lastLengthByte least b s.link = raiseViolation e s.link := by
    intro e he
    simp only [lastLengthByte, hv, he]
  refine ⟨fun hlt => ?_, fun hge hex => ?_, fun hge hex => ?_⟩
  · rw [hraise .nonMinimalLength (if_pos hlt), received_raiseViolation]; rfl
  · have he : extLenViolation least v s.conn = some .payloadTooLarge := by
      rw [extLenViolation, if_neg (Nat.not_lt.mpr hge), if_pos hex]
    rw [hraise .payloadTooLarge he, received_raiseViolation]; rfl
  · rw [lastLengthByte_accepted hv hge hex]
    cases hm : maskOf s.conn.hdrByte1
    · have hnz : v ≠ 0 := by rintro rfl; simp at hge; omega
      rw [headerLengthDone_unmasked (by exact hm), enterData_nonempty (by exact hnz)]
      exact received_quiet herr
    · rw [headerLengthDone_masked (by exact hm)]
      exact received_quiet herr

/-! ### Payload bytes (R145) -/

theorem ruleApplies_data {c : Conn} (hs : c.decodeStep = .data) (hr : c.payloadBytesRemaining ≠ 0)
    (hc : isControl (opcodeOf c.hdrByte0) = true → c.ctrlLen.toNat < 125) : ruleApplies c = true := by
  simp only [ruleApplies, hs, Config.ctrlMax, Bool.and_eq_true, bne_iff_ne]
  refine ⟨hr, ?_⟩
  cases h : isControl (opcodeOf c.hdrByte0)
  · rfl
  · simp [hc h]

theorem ruleApplies_key {c : Conn} (hs : c.decodeStep = .key) (h : c.fieldIdx.toNat < 4) : ruleApplies c = true := by
  simp only [ruleApplies, hs, decide_eq_true_eq, BitVec.le_def]
  exact Nat.le_of_lt_succ h

/-- A stored byte stands after those that were stored before it (R190). -/
theorem ctrlPayload_storeCtrl (u : Byte) (c : Conn) (h : c.ctrlLen.toNat < 125) :
    ctrlPayload (storeCtrl u c) = ctrlPayload c ++ [u] := by
  have hlen : (c.ctrlLen + 1).toNat = c.ctrlLen.toNat + 1 := by
    rw [BitVec.toNat_add]; simp; omega
  simp only [ctrlPayload, storeCtrl_ctrlBuf, storeCtrl_ctrlLen, hlen, Vector.toList_setIfInBounds]
  rw [List.take_succ_eq_append_getElem (by simpa using h)]
  simp [List.take_set_of_le]

theorem setIfInBounds_eq_set {α : Type} {n : Nat} (v : Vector α n) {i : Nat} (x : α) (h : i < n) :
    v.setIfInBounds i x = v.set i x h := by
  apply Vector.ext
  intro j hj
  rw [Vector.getElem_setIfInBounds, Vector.getElem_set]

theorem storeCtrl_eq_set (u : Byte) (c : Conn) (h : c.ctrlLen.toNat < 125) :
    storeCtrl u c = { c with ctrlBuf := c.ctrlBuf.set c.ctrlLen.toNat u h, ctrlLen := c.ctrlLen + 1 } := by
  rw [storeCtrl, setIfInBounds_eq_set _ _ h]

/-- A byte at DATA: the payload byte, and after the last one END (R145, R146). -/
theorem rxByte_data {s : State} (b : Byte) (h : s.At .data)
    (hroom : isControl (opcodeOf s.conn.hdrByte0) = true → s.conn.ctrlLen.toNat < 125) :
    (1 < s.conn.payloadBytesRemaining.toNat →
        exec (.rxByte b) s = .next (s.received (payloadByte s.link b))) ∧
      (s.conn.payloadBytesRemaining = 1 →
        exec (.rxByte b) s = .next (s.received (frameEnd (payloadByte s.link b)))) := by
  have hrun : s.conn.payloadBytesRemaining ≠ 0 →
      exec (.rxByte b) s = .next (s.received (dataRule b s.link)) := fun hnz => by
    rw [h.rxByte (ruleApplies_data h.atStep hnz hroom), stepRule_data h.atStep]
  obtain ⟨-, -, -, (hrem : _ = s.conn.payloadBytesRemaining - 1)⟩ := payloadByte_frame s.link b
  refine ⟨fun hlt => ?_, fun h1 => ?_⟩
  · rw [hrun (by bv_omega), dataRule_eq, if_neg (by rw [hrem]; bv_omega)]
  · rw [hrun (by rw [h1]; decide), dataRule_eq, if_pos (by rw [hrem, h1]; rfl)]

/-- All that RX_BYTE can do when it answers a next state (R252). -/
theorem exec_rxByte_cases {b : Byte} {s t : State} (h : exec (.rxByte b) s = .next t) :
    (s.conn.errorCode ≠ 0 ∧ t = s.received s.link) ∨
      (s.conn.errorCode = 0 ∧ ruleApplies s.conn = true ∧ t = s.received (stepRule b s.link)) := by
  obtain ⟨-, l, hl, rfl⟩ := receive_cases (show receive [b] s = .next t from h)
  rw [rxBytes_singleton] at hl
  rcases rxByte_cases b s.link with ⟨herr, hdrop⟩ | ⟨herr, hr, hrule⟩ | ⟨-, -, hfault⟩
  · cases hdrop.symm.trans hl; exact .inl ⟨herr, rfl⟩
  · cases hrule.symm.trans hl; exact .inr ⟨herr, hr, rfl⟩
  · cases hfault.symm.trans hl

theorem violationCode_listed (v : Violation) : violationCode v ≠ 0 ∧ (violationCode v).toNat ≤ 5 := by
  cases v <;> decide

end Sys2Proof.Machine

namespace Sys2Proof

open Machine

/-! ### Any byte -/

/-- Settles O21: a dropped byte and a violation leave the step; otherwise `stepRule_out` has the edge. -/
theorem sequencerFollowsTransitionTable : Obligations.SequencerFollowsTransitionTable := by
  intro s t b h
  constructor
  · rcases exec_rxByte_cases h with ⟨herr, rfl⟩ | ⟨herr, hr, rfl⟩
    · exact .inr ⟨rfl, .inl herr⟩
    · cases stepRule_out b s.link hr with
      | violation v hv hs =>
        rw [hv]; exact .inr ⟨rfl, .inl (violationCode_listed v).1⟩
      | goesOn out ho he hout hk hstep hc => exact hstep.imp id (fun hstay => ⟨hstay.1, .inr hstay.2⟩)
  · intro hinv
    obtain ⟨-, l, hl, rfl⟩ := receive_cases (show receive [b] s = .next t from h)
    obtain ⟨l', hl', hinv'⟩ := rxBytes_inv [b] s.link hinv
    cases hl.symm.trans hl'
    exact hinv'.notAtEnd

/-- Settles O22: nothing for a dropped byte, EV_ERROR for a violation, else what DATA and END emit (`stepRule_out`). -/
theorem outputOrderOfOneByte : Obligations.OutputOrderOfOneByte := by
  intro s t b h
  rcases exec_rxByte_cases h with ⟨herr, rfl⟩ | ⟨herr, hr, rfl⟩
  · exact ⟨[], by simp, .inl rfl⟩
  · cases stepRule_out b s.link hr with
    | violation v hv hs =>
      rw [hv]
      exact ⟨_, rfl, .inr (.inr (.inr (.inr (.inr (.inr (.inr (.inr ⟨rfl, (violationCode_listed v).1, herr⟩)))))))⟩
    | goesOn out ho he hout hk hstep hc =>
      refine ⟨out, ho, ?_⟩
      rcases hout with (h0 | hEnd | hEcho | hShutdown | hTx | hPong) | hBeat | hBeats
      · exact .inl h0
      · exact .inr (.inr (.inr (.inl hEnd)))
      · exact .inr (.inr (.inr (.inr (.inl hEcho))))
      · exact .inr (.inr (.inr (.inr (.inr (.inl hShutdown)))))
      · exact .inr (.inr (.inr (.inr (.inr (.inr (.inl hTx))))))
      · exact .inr (.inr (.inr (.inr (.inr (.inr (.inr (.inl hPong)))))))
      · exact .inr (.inl hBeat)
      · exact .inr (.inr (.inl hBeats))

/-- Settles O23: a byte that leaves `errorCode` not 0 is one whose rule raises a violation, which writes nothing else. -/
theorem violationChangesOnlyErrorCode : Obligations.ViolationChangesOnlyErrorCode := by
  intro s t b herr h hbad
  rcases exec_rxByte_cases h with ⟨hne, -⟩ | ⟨-, hr, rfl⟩
  · exact absurd herr hne
  · cases stepRule_out b s.link hr with
    | violation v hv hs =>
      rw [hv]; exact ⟨received_raiseViolation s v, (violationCode_listed v).2⟩
    | goesOn out ho he hout hk hstep hc => exact absurd (he.trans herr) hbad

/-! ### START -/

/-- Settles O12: the rule of START on an opcode that is not reserved. -/
theorem startAcceptsByteZero : Obligations.StartAcceptsByteZero := by
  intro s b h hdef
  rw [h.rxByte (by simp [ruleApplies, h.atStep]), stepRule_start h.atStep, startRule, if_neg (by simp [hdef])]
  exact congrArg _ (received_quiet h.noError)

/-- A reserved opcode in byte 0 (R132). -/
theorem rxByte_reserved {s : State} {b : Byte} (h : s.At .start) (hres : isReserved (opcodeOf b) = true) :
    exec (.rxByte b) s = .next (s.after { s.conn with errorCode := 1 } [.evError 1] .halted) := by
  rw [h.rxByte (by simp [ruleApplies, h.atStep]), stepRule_start h.atStep, startRule, if_pos hres,
    received_raiseViolation]
  rfl

/-- Settles O13: the rule of START on a reserved opcode. -/
theorem startRefusesReservedOpcode : Obligations.StartRefusesReservedOpcode := fun _ _ => rxByte_reserved

/-- Settles O35: a reserved instruction is its byte 0, with a reserved opcode in the low four bits. -/
theorem reservedFramesHalt : Obligations.ReservedFramesHalt := by
  intro s hd h i hi
  have hbyte : ∀ op : BitVec 4, isReserved op = true →
      receive (hd.bytes op) s = .next (s.after { s.conn with errorCode := 1 } [.evError 1] .halted) :=
    fun op hres => rxByte_reserved h (by rw [opcodeOf_byte0]; exact hres)
  simp only [List.mem_cons, List.not_mem_nil, or_false] at hi
  rcases hi with rfl | rfl | rfl | rfl | rfl | rfl | rfl | rfl | rfl | rfl <;> exact hbyte _ (by decide)

/-! ### LENGTH -/

/-- A byte 1 that raises a violation (R134, R135). -/
theorem rxByte_length_violation {s : State} {b : Byte} {v : Violation} (h : s.At .length)
    (hv : lengthViolation b s.conn = some v) :
    exec (.rxByte b) s =
      .next (s.after { s.conn with errorCode := violationCode v } [.evError (violationCode v)] .halted) := by
  rw [h.rxByte (by simp [ruleApplies, h.atStep]), stepRule_length h.atStep, lengthRule_violation hv,
    received_raiseViolation]

/-- The MASK bit that is wrong for the role (R134). -/
theorem maskOf_ne_expected {role : Role} {m : Bool} (h : role = .server ∧ m = false ∨ role = .client ∧ m = true) :
    m ≠ expectedMask role := by
  rcases h with ⟨rfl, rfl⟩ | ⟨rfl, rfl⟩ <;> decide

/-- Settles O14: each clause is one violation of byte 1, the checks before it passed. -/
theorem lengthByteChecksInOrder : Obligations.LengthByteChecksInOrder := by
  intro s b h
  refine ⟨fun hwrong => ?_, fun hm hc hn => ?_, fun hm hn hen hmax => ?_⟩
  · exact rxByte_length_violation h (lengthViolation_mask (maskOf_ne_expected hwrong))
  · exact rxByte_length_violation h (lengthViolation_control hm hc hn)
  · exact rxByte_length_violation h
      (lengthViolation_tooLarge hm hn ((exceeds_zeroExtend_iff s.conn _).mpr ⟨hen, hmax⟩))

/-- Settles O15: the base length selects the form, and a short one goes on as the MASK bit and the length say. -/
theorem lengthByteAccepted : Obligations.LengthByteAccepted := by
  intro s b h hm hctl hmax
  have hv : lengthViolation b s.conn = none := lengthViolation_accepted hm hctl (fun hn => by
    by_contra hex
    obtain ⟨hen, hlt⟩ := (exceeds_zeroExtend_iff s.conn _).mp (by simpa using hex)
    have := hmax hn hen
    omega)
  have hrun : exec (.rxByte b) s = .next (s.received (lengthRule b s.link)) := by
    rw [h.rxByte (by simp [ruleApplies, h.atStep]), stepRule_length h.atStep]
  have hext : (len7Of b).zeroExtend 64 = BitVec.ofNat 64 (len7Of b).toNat := by
    apply BitVec.eq_of_toNat_eq; simp
  rw [hrun]
  refine ⟨fun h126 => ?_, fun h127 => ?_, fun hn hmask => ?_, fun hpos hn hmask => ?_, fun h0 hmask hdef => ?_⟩
  · rw [lengthRule_126 hv h126]; exact congrArg _ (received_quiet h.noError)
  · rw [lengthRule_127 hv h127]; exact congrArg _ (received_quiet h.noError)
  · rw [lengthRule_125 hv hn, hext, headerLengthDone_masked (by exact hmask)]
    exact congrArg _ (received_quiet h.noError)
  · have hnz : BitVec.ofNat 64 (len7Of b).toNat ≠ 0 := fun h0 => by
      have := congrArg BitVec.toNat h0
      simp at this; omega
    rw [lengthRule_125 hv hn, hext, headerLengthDone_unmasked (by exact hmask), enterData_nonempty (by exact hnz)]
    exact congrArg _ (received_quiet h.noError)
  · rw [lengthRule_125 hv (by rw [h0]; decide), h0, headerLengthDone_unmasked (by exact hmask)]
    exact congrArg _ (received_enterData_empty h.noError rfl hdef rfl)

/-! ### SHORT_LENGTH and EXTENDED_LENGTH -/

/-- Settles O16: the first byte is shifted in, the second is the last. -/
theorem shortLengthBytes : Obligations.ShortLengthBytes := by
  intro s b v h hv
  have hrun : exec (.rxByte b) s = .next (s.received (shortLengthRule b s.link)) := by
    rw [h.rxByte (by simp [ruleApplies, h.atStep]), stepRule_shortLength h.atStep]
  have hlast : s.conn.fieldIdx = 1 → shortLengthRule b s.link = lastLengthByte 126 b s.link := fun h1 =>
    if_neg (by rw [h1]; decide)
  obtain ⟨hmin, hmax, hok⟩ := received_lastLengthByte (least := 126) (by decide) h.noError hv.symm
  rw [hrun]
  refine ⟨fun h0 => ?_, fun h1 hlt => ?_, fun h1 hge hex => ?_, fun h1 hge hex => ?_⟩
  · subst hv
    rw [shortLengthRule, if_pos h0, moreLengthByte, h0]
    exact congrArg _ (received_quiet h.noError)
  · rw [hlast h1, hmin hlt]
  · rw [hlast h1, hmax hge hex]
  · rw [hlast h1, hok hge hex]

/-- Settles O17: seven bytes are shifted in, the eighth is the last. -/
theorem extendedLengthBytes : Obligations.ExtendedLengthBytes := by
  intro s b v h hv
  have hrun : exec (.rxByte b) s = .next (s.received (extendedLengthRule b s.link)) := by
    rw [h.rxByte (by simp [ruleApplies, h.atStep]), stepRule_extendedLength h.atStep]
  have hlast : s.conn.fieldIdx = 7 → extendedLengthRule b s.link = lastLengthByte 65536 b s.link := fun h7 =>
    if_pos h7
  obtain ⟨hmin, hmax, hok⟩ := received_lastLengthByte (least := 65536) (by decide) h.noError hv.symm
  rw [hrun]
  refine ⟨fun hlt7 => ?_, fun h7 hlt => ?_, fun h7 hge hex => ?_, fun h7 hge hex => ?_⟩
  · subst hv
    rw [extendedLengthRule, if_neg (fun h7 => by rw [State.conn, h7] at hlt7; simp at hlt7), moreLengthByte]
    exact congrArg _ (received_quiet h.noError)
  · rw [hlast h7, hmin hlt]
  · rw [hlast h7, hmax hge hex]
  · rw [hlast h7, hok hge hex]

/-! ### KEY -/

/-- Settles O18: a key byte is stored; the fourth enters DATA, or ends a frame without payload. -/
theorem keyBytes : Obligations.KeyBytes := by
  intro s b hidx h
  have hrun : exec (.rxByte b) s = .next (s.received (keyRule b s.link)) := by
    rw [h.rxByte (ruleApplies_key h.atStep hidx), stepRule_key h.atStep]
  rw [hrun, keyRule, setIfInBounds_eq_set _ _ hidx]
  refine ⟨fun hlt => ?_, fun h3 hnz => ?_, fun h3 hz hdef => ?_⟩
  · rw [if_neg (fun h3 => by rw [State.conn, h3] at hlt; simp at hlt)]
    exact congrArg _ (received_quiet h.noError)
  · rw [if_pos h3, enterData_nonempty (by exact hnz)]
    exact congrArg _ (received_quiet h.noError)
  · rw [if_pos h3]
    exact congrArg _ (received_enterData_empty h.noError rfl hdef hz)

/-! ### DATA -/

/-- Settles O19: the beat of the byte, and after the last byte the END of a data frame. -/
theorem dataFramePayloadByte : Obligations.DataFramePayloadByte := by
  intro s b u c h hdata hu hc
  have hnot : isControl (opcodeOf s.conn.hdrByte0) = false := isControl_of_isData hdata
  obtain ⟨hmore, hlast⟩ := rxByte_data b h (by simp [hnot])
  rw [payloadByte_data hnot] at hmore hlast
  subst hu; subst hc
  refine ⟨fun hlt => ?_, fun h1 => ?_⟩
  · rw [hmore hlt]
    exact congrArg _ (received_eq_after rfl (rxStatus_ok h.noError))
  · rw [hlast h1, frameEnd_data _ (by exact hdata)]
    refine congrArg _ (received_eq_after ?_ (rxStatus_ok h.noError))
    simp only [List.append_assoc, List.cons_append, List.nil_append]
    rfl

/-- Settles O20: the byte is stored after those before it, and the last one ends the frame with all of them. -/
theorem controlFramePayloadByte : Obligations.ControlFramePayloadByte := by
  intro s b u c hroom h hctl hu hc
  have hstore : c = storeCtrl u (countByte s.conn) := by
    subst hc; rw [storeCtrl_eq_set u (countByte s.conn) hroom]; rfl
  have herr : c.errorCode = 0 := by subst hc; exact h.noError
  obtain ⟨hmore, hlast⟩ := rxByte_data b h (fun _ => hroom)
  have hbyte : payloadByte s.link b = { s.link with conn := c } := by
    rw [hstore, hu]; exact payloadByte_control hctl
  rw [hbyte] at hmore hlast
  refine ⟨fun hlt => (hmore hlt).trans (congrArg _ (received_quiet herr)), fun h1 => ?_⟩
  have hlen : c.ctrlLen.toNat ≤ 125 := by
    have hinc : c.ctrlLen = s.conn.ctrlLen + 1 := by subst hc; rfl
    rw [hinc, BitVec.toNat_add]; simp; omega
  rw [hlast h1]
  refine congrArg _ (received_frameEnd herr ?role ?defined hlen fun _ => ?payload)
  case role => subst hc; rfl
  case defined => subst hc; exact isReserved_of_isControl hctl
  case payload => rw [hstore, ctrlPayload_storeCtrl u (countByte s.conn) hroom]; rfl

end Sys2Proof
end

section
/-!
PROOFS. Where a step finds its instruction (R2, R61, R250; log entries 5, 6, 11, 13 and 15).
-/

namespace Sys2Proof.Machine

/-- A step that fetches an instruction executes it on the rest of the inbox. -/
theorem step_run {s : State} {i : Instr} {q : List HostInput} (h : fetch s = .run i q) :
    step s = exec i { s with inbox := q } := by simp only [step, h]

theorem fetch_command {s : State} {w : CmdWord} {q : List HostInput} (h : s.inbox = .command w :: q) :
    fetch s = fetchCommand w q := by simp only [fetch, h]

theorem fetch_wire {s : State} {b : Byte} {bs : List Byte} {q : List HostInput} (h : s.inbox = .wire (b :: bs) :: q) :
    fetch s = fetchWire s.conn.decodeStep b bs q := by simp only [fetch, h]

theorem fetchCommand_decodes {w : CmdWord} {i : Instr} (h : decodeCommand w = .ok i) (q : List HostInput) :
    fetchCommand w q = .run i q := by simp only [fetchCommand, h]

/-- Bytes left over stand in front again, unless there are none. -/
theorem pushWire_eq_ite (bs : List Byte) (q : List HostInput) :
    pushWire bs q = if bs = [] then q else .wire bs :: q := by cases bs <;> simp [pushWire]

/-- Any code but 7 selects the command of that code (R262). -/
theorem decodeCommand_assigned {w : CmdWord} (h : w.code ≠ 7) :
    ∃ i, decodeCommand w = .ok i ∧ i.commandCode = some w.code := by
  have hcodes : w.code = 0 ∨ w.code = 1 ∨ w.code = 2 ∨ w.code = 3 ∨ w.code = 4 ∨ w.code = 5 ∨ w.code = 6 := by
    generalize w.code = code at h; revert code; decide
  rcases hcodes with hc | hc | hc | hc | hc | hc | hc <;> simp only [decodeCommand, hc] <;> exact ⟨_, rfl, rfl⟩

end Sys2Proof.Machine

namespace Sys2Proof

open Machine

/-- Settles O49: a command word is fetched when it decodes, bytes when they decode at START. -/
theorem stepRunsTheDecodedInstruction : Obligations.StepRunsTheDecodedInstruction := by
  refine ⟨fun s w q i hin hdec => ?_, fun s bs rest q i hin hstart hdec => ?_⟩
  · exact step_run ((fetch_command hin).trans (fetchCommand_decodes hdec q))
  · cases bs with
    | nil => cases hdec
    | cons b bs =>
      have hfetch : fetch s = .run i (pushWire rest q) := by
        simp only [fetch_wire hin, fetchWire, hstart, hdec, if_true]
      rw [step_run hfetch, pushWire_eq_ite]

/-- Settles O50: in mid-frame the bytes are not decoded, and at START they do not decode. -/
theorem otherBytesAreReceivedSingly : Obligations.OtherBytesAreReceivedSingly := by
  refine ⟨fun s b bs q hin hwhy => ?_, fun s q hin => ?_⟩
  · have hfetch : fetch s = .run (.rxByte b) (pushWire bs q) := by
      rw [fetch_wire hin, fetchWire]
      split
      · obtain ⟨e, he⟩ := hwhy.resolve_left (not_not_intro ‹_›)
        rw [he]
      · rfl
    rw [step_run hfetch, pushWire_eq_ite]
  · exact step_run (by simp only [fetch, hin])

/-- Settles O51: an empty inbox fetches nothing. -/
theorem idleStepChangesNothing : Obligations.IdleStepChangesNothing := by
  intro s hin
  simp only [step, fetch, hin]

/-- Settles O52: code 7 is the one code that selects no command. -/
theorem unassignedCodeIsRefused : Obligations.UnassignedCodeIsRefused := by
  intro s w q hin
  refine ⟨fun h7 => ?_, fun hne => ?_⟩
  · simp only [step, fetch_command hin, fetchCommand, decodeCommand, h7]
    rfl
  · obtain ⟨i, hdec, hcode⟩ := decodeCommand_assigned hne
    exact ⟨i, hdec, hcode, step_run ((fetch_command hin).trans (fetchCommand_decodes hdec q))⟩

end Sys2Proof
end

section
/-!
PROOFS. Whole frames that pass the header checks: what is delivered, stored, answered and reported (R171 to R178, R190 to
R194), and what a sending instruction draws and sends (R226).
-/

namespace Sys2Proof.Machine

/-! ### The end of a frame, by opcode -/

theorem afterEnd_close (s : State) {c : Conn} (p : List Byte) (h : opcodeOf c.hdrByte0 = 0x8) :
    s.afterEnd c p =
      if c.closeSent then s.after { c with decodeStep := .start } [.evShutdown] .ok
      else
        s.afterSend { c with decodeStep := .start, closeSent := true }
          [.tx (encodeTx c.role true 0x8 (drawFor s.link).1 p), .evShutdown] .ok := if_pos h

theorem afterEnd_ping (s : State) {c : Conn} (p : List Byte) (h : opcodeOf c.hdrByte0 = 0x9) :
    s.afterEnd c p =
      s.afterSend { c with decodeStep := .start } [.tx (encodeTx c.role true 0xA (drawFor s.link).1 p)] .ok := by
  rw [State.afterEnd, if_neg (by rw [h]; decide), if_pos h]

theorem afterEnd_pong (s : State) {c : Conn} (p : List Byte) (h : opcodeOf c.hdrByte0 = 0xA) :
    s.afterEnd c p =
      s.after { c with decodeStep := .start }
        (if c.pongNotify then [.evPong (BitVec.ofNat 7 p.length)] else []) .ok := by
  rw [State.afterEnd, if_neg (by rw [h]; decide), if_neg (by rw [h]; decide), if_pos h]

/-! ### Accepted frames -/

@[simp] theorem opcodeOf_afterFrame (c : Conn) (op : BitVec 4) (f : Frame) :
    opcodeOf (c.afterFrame op f).hdrByte0 = op := opcodeOf_byte0 _ _ _

/-- An accepted data frame: its beats, with the fragment state of FIN and the opcode (R171 to R178). -/
theorem receive_dataFrame {s : State} {op : BitVec 4} {f : Frame} (h : s.At .start) (ha : s.conn.Accepts f)
    (hop : isData op = true) (hlen : f.payload.length < 2 ^ 64) :
    receive (f.bytes op) s =
      .next
        (s.after (s.conn.afterFrame op f)
          (beats f.payload (nextLastOpcode op s.conn.lastOpcode == 0x2) (fragState f.fin op)) .ok) := by
  have hnot : isControl op = false := isControl_of_isData hop
  rw [receive_next h.initialised
    (rxBytes_frame h.noError h.atStep (isReserved_of_isData hop) ha hlen (by simp [hnot])),
    frameEnd_data _ (by simpa using hop)]
  refine congrArg _ (received_eq_after ?_ (rxStatus_ok h.noError))
  simp [Conn.afterFrame, beats, hnot, binFlag]

/-- An accepted control frame: what END does for its opcode, with the frame's payload (R146, R190). -/
theorem receive_controlFrame {s : State} {op : BitVec 4} {f : Frame} (h : s.At .start) (ha : s.conn.Accepts f)
    (hop : isControl op = true) (hlen : f.payload.length ≤ 125) :
    receive (f.bytes op) s = .next (s.afterEnd (s.conn.afterFrame op f) f.payload) := by
  have hfits : (s.conn.afterFrame op f).ctrlLen.toNat ≤ 125 := by
    simp only [Conn.afterFrame, hop, if_true, BitVec.toNat_ofNat]; omega
  rw [receive_next h.initialised
    (rxBytes_frame h.noError h.atStep (isReserved_of_isControl hop) ha (by omega) (fun _ => hlen)),
    if_pos hop, List.append_nil]
  exact congrArg _
    (received_frameEnd h.noError rfl (by simpa using isReserved_of_isControl hop) hfits
      (fun _ => ctrlPayload_afterFrame s.conn hop hlen))

/-- A frame leaves the role and the maximum alone, so the next frame is judged as before (R40). -/
theorem Conn.Accepts.afterFrame {c : Conn} {g : Frame} (h : c.Accepts g) (op : BitVec 4) (f : Frame) :
    (c.afterFrame op f).Accepts g := ⟨h.maskAgrees, h.withinMaximum⟩

end Sys2Proof.Machine

namespace Sys2Proof

open Machine

/-- Settles O29: a data frame whose own opcode is remembered, and is not BIN. -/
theorem textFrameDelivered : Obligations.TextFrameDelivered := fun _ _ h ha hlen => receive_dataFrame h ha rfl hlen

/-- Settles O30: a data frame whose own opcode is remembered, and is BIN. -/
theorem binFrameDelivered : Obligations.BinFrameDelivered := fun _ _ h ha hlen => receive_dataFrame h ha rfl hlen

/-- Settles O31: a CONT opcode is not remembered, so the type is that of the last TEXT or BIN. -/
theorem contFrameDelivered : Obligations.ContFrameDelivered := fun _ _ h ha hlen => receive_dataFrame h ha rfl hlen

/-- Settles O32: END of a close, with the payload that was stored. -/
theorem closeFrameEchoedOnce : Obligations.CloseFrameEchoedOnce := by
  intro s f h ha hlen
  have hrun : exec (.close f) s = .next (s.afterEnd (s.conn.afterFrame 0x8 f) f.payload) :=
    receive_controlFrame h ha rfl hlen
  rw [hrun, afterEnd_close s _ (opcodeOf_afterFrame _ _ _)]
  exact ⟨fun hfirst => congrArg _ (if_neg (by simpa [Conn.afterFrame] using hfirst)),
    fun hsent => congrArg _ (if_pos hsent)⟩

/-- Settles O33: END of a ping, with the payload that was stored. -/
theorem pingFrameAnswered : Obligations.PingFrameAnswered := by
  intro s f h ha hlen
  have hrun : exec (.ping f) s = .next (s.afterEnd (s.conn.afterFrame 0x9 f) f.payload) :=
    receive_controlFrame h ha rfl hlen
  rw [hrun, afterEnd_ping s _ (opcodeOf_afterFrame _ _ _)]
  rfl

/-- Settles O34: END of a pong, with the payload that was stored. -/
theorem pongFrameReportedOnRequest : Obligations.PongFrameReportedOnRequest := by
  intro s f h ha hlen
  have hrun : exec (.pong f) s = .next (s.afterEnd (s.conn.afterFrame 0xA f) f.payload) :=
    receive_controlFrame h ha rfl hlen
  refine ⟨?_, ctrlPayload_afterFrame s.conn rfl hlen⟩
  rw [hrun, afterEnd_pong s _ (opcodeOf_afterFrame _ _ _)]
  rfl

end Sys2Proof

namespace Sys2Proof.Machine

/-! ### Frame after frame -/

/-- `t` stands at START after a frame received in `s` that emitted `out`; what `s` would accept next, `t` accepts. -/
structure State.Continues (s t : State) (out : List Output) : Prop where
  ready : t.At .start
  accepts : ∀ {g : Frame}, s.conn.Accepts g → t.conn.Accepts g
  role : t.conn.role = s.conn.role
  output : t.link.output = s.link.output ++ out

/-- An accepted data frame leaves the key source alone and the type by its opcode (R170, R226). -/
theorem after_dataFrame_continues {s : State} (h : s.At .start) (op : BitVec 4) (f : Frame) (out : List Output) :
    s.Continues (s.after (s.conn.afterFrame op f) out .ok) out ∧
      (drawFor (s.after (s.conn.afterFrame op f) out .ok).link).1 = (drawFor s.link).1 :=
  ⟨⟨⟨h.initialised, h.noError, rfl⟩, fun hg => hg.afterFrame op f, rfl, rfl⟩,
    (drawFor_congr (s.after (s.conn.afterFrame op f) out .ok).link s.link rfl rfl rfl).1⟩

/-- A TEXT or BIN frame with FIN 0 opens a message of its type. -/
theorem firstFragment {s : State} {f : Frame} (bin : Bool) (h : s.At .start) (ha : s.conn.Accepts f)
    (hlen : f.payload.length < 2 ^ 64) (hfin : f.fin = false) :
    ∃ t, exec (if bin then .bin f else .text f) s = .next t ∧ s.Continues t (beats f.payload bin .start) ∧
      (t.conn.lastOpcode == 0x2) = bin ∧ (drawFor t.link).1 = (drawFor s.link).1 := by
  cases bin
  · have hrun := textFrameDelivered s f h ha hlen
    rw [hfin] at hrun
    obtain ⟨hcont, hkey⟩ := after_dataFrame_continues h 0x1 f (beats f.payload false .start)
    exact ⟨_, hrun, hcont, rfl, hkey⟩
  · have hrun := binFrameDelivered s f h ha hlen
    rw [hfin] at hrun
    obtain ⟨hcont, hkey⟩ := after_dataFrame_continues h 0x2 f (beats f.payload true .start)
    exact ⟨_, hrun, hcont, rfl, hkey⟩

/-- A CONT frame is delivered with the type of the message and leaves that type (R170, R172, R176). -/
theorem nextFragment {s : State} {f : Frame} {bin : Bool} (h : s.At .start) (ha : s.conn.Accepts f)
    (hlen : f.payload.length < 2 ^ 64) (hbin : (s.conn.lastOpcode == 0x2) = bin) :
    ∃ t, exec (.cont f) s = .next t ∧ s.Continues t (beats f.payload bin (if f.fin then .finish else .cont)) ∧
      (t.conn.lastOpcode == 0x2) = bin ∧ (drawFor t.link).1 = (drawFor s.link).1 := by
  have hrun := contFrameDelivered s f h ha hlen
  rw [hbin] at hrun
  obtain ⟨hcont, hkey⟩ := after_dataFrame_continues h 0x0 f (beats f.payload bin (if f.fin then .finish else .cont))
  exact ⟨_, hrun, hcont, hbin, hkey⟩

/-- A PING frame between two fragments is answered and leaves the type (R170, R192). -/
theorem pingBetween {s : State} {g : Frame} (h : s.At .start) (ha : s.conn.Accepts g) (hlen : g.payload.length ≤ 125) :
    ∃ t, exec (.ping g) s = .next t ∧
      s.Continues t [.tx (encodeTx s.conn.role true 0xA (drawFor s.link).1 g.payload)] ∧
      t.conn.lastOpcode = s.conn.lastOpcode :=
  ⟨_, pingFrameAnswered s g h ha hlen,
    ⟨⟨h.initialised, h.noError, rfl⟩, fun hg => hg.afterFrame 0x9 g, rfl, rfl⟩, rfl⟩

/-! ### What a sending instruction sends -/

/-- Every sending instruction completes, with one frame under the key drawn and then its event, if it has one. -/
theorem State.Sends.afterSend {s : State} {i : Instr} {fin : Bool} {op : BitVec 4} {p : List Byte}
    (hi : s.initialised = true) (h : s.Sends i fin op p) :
    ∃ c, exec i s =
      .next (s.afterSend c (.tx (encodeTx s.conn.role fin op (drawFor s.link).1 p) :: eventAfterSend i) .ok) := by
  cases h with
  | txFrame _ _ _ admitted fits => exact ⟨_, (txFrameSendsOrRefuses s fin op p hi).2.2 admitted fits⟩
  | txClose _ first fits => exact ⟨_, (txCloseSendsOnce s p hi).2.2 first fits⟩
  | txPing _ fits => exact ⟨_, (txPingSends s p hi).2 fits⟩
  | ping f ready accepted fits => exact ⟨_, pingFrameAnswered s f ready accepted fits⟩
  | close f ready accepted fits first => exact ⟨_, (closeFrameEchoedOnce s f ready accepted fits).1 first⟩

/-- The key source for each role (R226). -/
theorem drawFor_server {l : Link} (h : l.conn.role = .server) : (drawFor l).2 = l := by simp only [drawFor, h]

theorem drawFor_client {l : Link} (h : l.conn.role = .client) : drawFor l = drawKey l := by simp only [drawFor, h]

theorem drawKey_ready {l : Link} {k : Key} {ks : List Key} (h : l.keys = k :: ks) :
    drawKey l = (k, { l with keys := ks }) := by simp only [drawKey, h]

theorem drawKey_free {l : Link} (h : l.keys = []) :
    drawKey l = (Config.freeKey l.draws, { l with draws := l.draws + 1 }) := by simp only [drawKey, h]

/-! ### A frame across the link -/

/-- The frame a codec sends passes the header checks of the other role (R103, R134, R231). -/
theorem accepts_sentKey {c : Conn} {sender : Role} (hrole : c.role ≠ sender) (fin : Bool) (key : Key) {p : List Byte}
    (hmax : exceeds c (BitVec.ofNat 64 p.length) = false) : c.Accepts ⟨fin, 0, sentKey sender key, p⟩ := by
  refine ⟨?_, hmax⟩
  revert hrole
  cases c.role <;> cases sender <;> simp [sentKey, expectedMask]

end Sys2Proof.Machine

namespace Sys2Proof

open Machine

/-- Settles O36: each frame leaves the decoder at START with the role and the maximum as they were, so the next one is
accepted; CONT and PING leave the type, so that of the first frame is that of all three. -/
theorem threeFragmentsKeepTheirType : Obligations.ThreeFragmentsKeepTheirType := by
  intro s bin f₁ f₂ f₃ g h ha₁ ha₂ ha₃ hag hlen₁ hlen₂ hlen₃ hleng hfin₁ hfin₂ hfin₃
  obtain ⟨t₁, hrun₁, hnext₁, hbin₁, hkey₁⟩ := firstFragment bin h ha₁ hlen₁ hfin₁
  obtain ⟨t₂, hrun₂, hnext₂, hbin₂, hkey₂⟩ := nextFragment hnext₁.ready (hnext₁.accepts ha₂) hlen₂ hbin₁
  obtain ⟨t₃, hrun₃, hnext₃, htype₃⟩ := pingBetween hnext₂.ready (hnext₂.accepts (hnext₁.accepts hag)) hleng
  obtain ⟨t₄, hrun₄, hnext₄, -, -⟩ := nextFragment (bin := bin) hnext₃.ready
    (hnext₃.accepts (hnext₂.accepts (hnext₁.accepts ha₃))) hlen₃ (by rw [htype₃, hbin₂])
  refine ⟨t₁, t₂, t₃, t₄, hrun₁, hrun₂, hrun₃, hrun₄, ?_⟩
  rw [hnext₄.output, hnext₃.output, hnext₂.output, hnext₁.output, hnext₂.role, hnext₁.role, hkey₂, hkey₁, hfin₂, hfin₃]
  rfl

/-- Settles O46: every sending instruction draws as its role demands (`State.Sends.afterSend`); the clauses are the three ways
of drawing. -/
theorem oneKeyDrawnPerClientFrame : Obligations.OneKeyDrawnPerClientFrame := by
  intro s i fin op p hi hsends
  obtain ⟨c, hrun⟩ := hsends.afterSend hi
  refine ⟨fun hrole => ?_, fun k ks hrole hkeys => ?_, fun k hrole hkeys hk => ?_⟩
  · rw [hrole] at hrun
    refine ⟨_, hrun, ?_, ?_, rfl⟩ <;> simp only [State.afterSend, drawFor_server hrole]
  · rw [hrole, drawFor_client hrole, drawKey_ready hkeys] at hrun
    refine ⟨_, hrun, ?_, ?_, rfl⟩ <;> simp only [State.afterSend, drawFor_client hrole, drawKey_ready hkeys]
  · subst hk
    rw [hrole, drawFor_client hrole, drawKey_free hkeys] at hrun
    refine ⟨_, hrun, ?_, ?_, rfl⟩ <;> simp only [State.afterSend, drawFor_client hrole, drawKey_free hkeys, hkeys]

/-- Settles O11: the chunks are received as one (O42), and their bytes are a data frame the other end accepts. -/
theorem roundTripAcrossTheLink : Obligations.RoundTripAcrossTheLink := by
  intro s sender fin op key p chunks h hrole hop hlen hmax hbytes
  cases chunks with
  | nil => cases hbytes
  | cons c cs =>
    have hdata : isData op = true := by rcases hop with rfl | rfl <;> rfl
    have hrun := receive_dataFrame (op := op) h (accepts_sentKey hrole fin key hmax) hdata hlen
    have hchunks : runChunks (c :: cs) s = receive (encodeTx sender fin op key p) s := by
      rw [runChunks_eq_receive, hbytes]
    refine ⟨_, hchunks.trans hrun, h.noError, rfl, ?_⟩
    rcases hop with rfl | rfl <;> rfl

end Sys2Proof
end

section
/-!
PROOFS. Frames that fail a header check (R101, R134, R135, R139, R141): the violation, where it leaves the header, and
that nothing after it has any effect (R283, R286).
-/

namespace Sys2Proof.Machine

/-! ### A sequence that halts -/

theorem raiseViolation_halts (v : Violation) (l : Link) : (raiseViolation v l).conn.errorCode ≠ 0 :=
  (violationCode_listed v).1

/-- Only a length that is not in its shortest form has code 3 (R281). -/
theorem raiseViolation_ne_three {v : Violation} (h : v ≠ .nonMinimalLength) (l : Link) :
    (raiseViolation v l).conn.errorCode ≠ 3 := by
  show violationCode v ≠ 3
  revert h; cases v <;> decide

/-- What follows a halting sequence is dropped (R286). -/
theorem rxBytes_append_halted {x : List Byte} {l l' : Link} (h : rxBytes x l = .next l') (he : l'.conn.errorCode ≠ 0)
    (y : List Byte) : rxBytes (x ++ y) l = .next l' := by
  rw [rxBytes_append_next h, rxBytes_halted he]

/-- The link after an accepted byte 0 (R131). -/
def afterByte0 (b0 : Byte) (l : Link) : Link :=
  { l with
    conn :=
      { l.conn with
        hdrByte0 := b0
        lastOpcode := nextLastOpcode (opcodeOf b0) l.conn.lastOpcode
        decodeStep := .length } }

theorem rxBytes_byte0 {b0 : Byte} {l : Link} (herr : l.conn.errorCode = 0) (hs : l.conn.decodeStep = .start)
    (hdef : isReserved (opcodeOf b0) = false) (bs : List Byte) :
    rxBytes (b0 :: bs) l = rxBytes bs (afterByte0 b0 l) := by
  rw [rxBytes_cons_rule herr (by simp [ruleApplies, hs]), stepRule_start hs, startRule, if_neg (by simp [hdef])]
  rfl

/-- A violation of byte 1 halts, whatever follows (R134, R135). -/
theorem rxBytes_byte1_violation {b1 : Byte} {l : Link} {v : Violation} (herr : l.conn.errorCode = 0)
    (hs : l.conn.decodeStep = .length) (hv : lengthViolation b1 l.conn = some v) (bs : List Byte) :
    rxBytes (b1 :: bs) l = .next (raiseViolation v l) := by
  rw [rxBytes_cons_rule herr (by simp [ruleApplies, hs]), stepRule_length hs, lengthRule_violation hv]
  exact rxBytes_halted (raiseViolation_halts v l) bs

/-- A wrong MASK bit halts on byte 1, whatever the length and what follows (R134). -/
theorem rxBytes_lenField_mask {m : Bool} {l : Link} (herr : l.conn.errorCode = 0) (hs : l.conn.decodeStep = .length)
    (hm : m ≠ expectedMask l.conn.role) (L : Nat) (rest : List Byte) :
    rxBytes (lenField m L ++ rest) l = .next (raiseViolation .maskDirection l) := by
  obtain ⟨n, ext, hfield⟩ := lenField_cons m L
  rw [hfield, List.cons_append]
  exact rxBytes_byte1_violation herr hs (lengthViolation_mask (by rwa [maskOf_byte1])) _

/-- The bytes of a frame with the wrong MASK bit (R131, R134). -/
theorem rxBytes_frame_mask {op : BitVec 4} {f : Frame} {l : Link} (herr : l.conn.errorCode = 0)
    (hs : l.conn.decodeStep = .start) (hop : isReserved op = false) (hm : f.key.isSome ≠ expectedMask l.conn.role) :
    rxBytes (f.bytes op) l = .next (raiseViolation .maskDirection (afterByte0 (byte0 f.fin f.rsv op) l)) := by
  rw [Frame.bytes, wireFrame, rxBytes_byte0 herr hs (by rwa [opcodeOf_byte0])]
  exact rxBytes_lenField_mask (l := afterByte0 (byte0 f.fin f.rsv op) l) herr rfl hm _ _

theorem nextLastOpcode_control {op : BitVec 4} (h : isControl op = true) (last : BitVec 4) :
    nextLastOpcode op last = last := by
  refine if_neg ?_
  rintro (rfl | rfl) <;> cases h

/-- A length field over 125 uses an extended form (R100). -/
theorem lenField_extended (m : Bool) {L : Nat} (h : 125 < L) :
    ∃ n ext, lenField m L = byte1 m n :: ext ∧ 126 ≤ n.toNat := by
  unfold lenField
  rw [if_neg (Nat.not_le.mpr h)]
  split <;> exact ⟨_, _, rfl, by decide⟩

/-! ### Extended lengths -/

/-- Byte 1 and a whole extended length: the register holds all but the last byte, which is then judged (R137 to R141). -/
theorem rxBytes_extLength {b1 : Byte} {ext : List Byte} {least : Nat} {l : Link} (herr : l.conn.errorCode = 0)
    (hs : l.conn.decodeStep = .length) (hv : lengthViolation b1 l.conn = none)
    (hform : len7Of b1 = 126 ∧ ext.length = 2 ∧ least = 126 ∨ len7Of b1 = 127 ∧ ext.length = 8 ∧ least = 65536) :
    ∃ d e i b, rxBytes (b1 :: ext) l = .next (lastLengthByte least b (extLink b1 d e i l)) ∧
      shiftIn e b = lengthOf ext := by
  rcases hform with ⟨h126, hlen, rfl⟩ | ⟨h127, hlen, rfl⟩
  · match ext, hlen with
    | [a, b], _ => exact ⟨_, _, _, b, rxBytes_short herr hs hv h126, rfl⟩
  · obtain ⟨init, b, hext⟩ := (List.eq_nil_or_concat ext).resolve_left (by rintro rfl; cases hlen)
    rw [List.concat_eq_append] at hext
    subst hext
    exact ⟨_, _, _, b, rxBytes_long herr hs hv h127 (by simpa using hlen), (lengthOf_snoc init b).symm⟩

/-- Completing the header keeps the length, byte 1 and `errorCode`, whichever step follows (R142, R144). -/
theorem headerLengthDone_conn (l : Link) :
    (headerLengthDone l).conn.errorCode = l.conn.errorCode ∧
      (headerLengthDone l).conn.payloadBytesRemaining = l.conn.payloadBytesRemaining ∧
      (headerLengthDone l).conn.hdrByte1 = l.conn.hdrByte1 := by
  unfold headerLengthDone
  split
  · exact ⟨rfl, rfl, rfl⟩
  · unfold enterData
    dsimp only
    split
    · rw [frameEnd_conn]; exact ⟨rfl, rfl, rfl⟩
    · exact ⟨rfl, rfl, rfl⟩

/-! ### Byte 0 takes part by FIN and opcode only (R97) -/

theorem drawFor_setByte0 (x : Byte) (l : Link) :
    drawFor (setByte0 x l) = ((drawFor l).1, setByte0 x (drawFor l).2) := by
  obtain ⟨hkey, hkeys, hdraws⟩ := drawFor_congr (setByte0 x l) l rfl rfl rfl
  exact Prod.ext hkey (link_eq (by simp [setByte0]) hkeys hdraws (by simp [setByte0]))

/-- END does the same for a byte 0 of the same opcode and FIN. -/
theorem frameEnd_setByte0 {x : Byte} {l : Link} (hop : opcodeOf x = opcodeOf l.conn.hdrByte0)
    (hfin : finOf x = finOf l.conn.hdrByte0) : frameEnd (setByte0 x l) = setByte0 x (frameEnd l) := by
  have hop' : opcodeOf (setByte0 x l).conn.hdrByte0 = opcodeOf l.conn.hdrByte0 := hop
  have hfin' : finOf (setByte0 x l).conn.hdrByte0 = finOf l.conn.hdrByte0 := hfin
  rcases opcode_kinds (opcodeOf l.conn.hdrByte0) with h | h | h | h | h
  · rw [frameEnd_data l h, frameEnd_data (setByte0 x l) (by rw [hop']; exact h), hop', hfin']
    rfl
  · rw [frameEnd_reserved l h, frameEnd_reserved (setByte0 x l) (by rw [hop']; exact h)]
    rfl
  · rw [frameEnd_close l h, frameEnd_close (setByte0 x l) (hop'.trans h), drawFor_setByte0]
    rw [apply_ite (setByte0 x)]
    rfl
  · rw [frameEnd_ping l h, frameEnd_ping (setByte0 x l) (hop'.trans h), drawFor_setByte0]
    rfl
  · rw [frameEnd_pong l h, frameEnd_pong (setByte0 x l) (hop'.trans h)]
    rfl

theorem afterByte0_setByte0 {x y : Byte} (h : opcodeOf x = opcodeOf y) (l : Link) :
    afterByte0 x l = setByte0 x (afterByte0 y l) := by
  simp only [afterByte0, setByte0, h]

/-- A well-formed frame over the maximum: violation 5, the same for every RSV but for the byte 0 that is stored
(R135, R139, R141). -/
theorem rxBytes_frame_exceeds {op : BitVec 4} {f : Frame} {l : Link} (herr : l.conn.errorCode = 0)
    (hs : l.conn.decodeStep = .start) (hop : isReserved op = false) (hm : f.key.isSome = expectedMask l.conn.role)
    (hlen : f.payload.length < 2 ^ 64) (hctl : isControl op = true → f.payload.length ≤ 125)
    (hex : exceeds l.conn (BitVec.ofNat 64 f.payload.length) = true) :
    ∃ b1 d e i, ∀ r : BitVec 3, rxBytes ({ f with rsv := r }.bytes op) l =
      .next (raiseViolation .payloadTooLarge (extLink b1 d e i (afterByte0 (byte0 f.fin r op) l))) := by
  obtain ⟨b1, d, e, i, hall⟩ := rxBytes_lenField_exceeds (l := afterByte0 (byte0 f.fin f.rsv op) l)
    (by exact herr) rfl hm hlen (by simpa [afterByte0] using hctl) hex
  refine ⟨b1, d, e, i, fun r => ?_⟩
  have hsame : opcodeOf (byte0 f.fin r op) = opcodeOf (byte0 f.fin f.rsv op) := by simp
  rw [Frame.bytes, wireFrame, rxBytes_byte0 herr hs (by rwa [opcodeOf_byte0]), afterByte0_setByte0 hsame]
  exact rxBytes_append_halted (hall _ hsame) (raiseViolation_halts _ _) _

/-- A well-formed frame with another RSV: the link it leaves differs in `hdr.byte0` only (R97). -/
theorem rxBytes_frame_rsv {op : BitVec 4} {f : Frame} {l : Link} (herr : l.conn.errorCode = 0)
    (hs : l.conn.decodeStep = .start) (hop : isReserved op = false) (hlen : f.payload.length < 2 ^ 64)
    (hctl : isControl op = true → f.payload.length ≤ 125) (r : BitVec 3) :
    ∃ l', rxBytes (f.bytes op) l = .next l' ∧
      rxBytes ({ f with rsv := r }.bytes op) l = .next (setByte0 (byte0 f.fin r op) l') := by
  by_cases hm : f.key.isSome = expectedMask l.conn.role
  · cases hex : exceeds l.conn (BitVec.ofNat 64 f.payload.length)
    · have ha : l.conn.Accepts f := ⟨hm, hex⟩
      have ha' : l.conn.Accepts { f with rsv := r } := ⟨hm, hex⟩
      refine ⟨_, rxBytes_frame herr hs hop ha hlen hctl, (rxBytes_frame herr hs hop ha' hlen hctl).trans ?_⟩
      rw [← frameEnd_setByte0 (by simp) (by simp [Conn.afterFrame])]
      rfl
    · obtain ⟨b1, d, e, i, hall⟩ := rxBytes_frame_exceeds herr hs hop hm hlen hctl hex
      refine ⟨_, hall f.rsv, (hall r).trans ?_⟩
      rw [afterByte0_setByte0 (y := byte0 f.fin f.rsv op) (by simp)]
      rfl
  · refine ⟨_, rxBytes_frame_mask herr hs hop hm, (rxBytes_frame_mask herr hs hop (f := { f with rsv := r }) hm).trans ?_⟩
    rw [afterByte0_setByte0 (y := byte0 f.fin f.rsv op) (by simp)]
    rfl

end Sys2Proof.Machine

namespace Sys2Proof

open Machine

/-- Settles O10: the three violations byte 1 and the last length byte can raise are not violation 3, and an accepted
field leaves its length (`rxBytes_lenField`). -/
theorem decoderUndoesLengthField : Obligations.DecoderUndoesLengthField := by
  intro l m L herr hs hL
  by_cases hm : m = expectedMask l.conn.role
  case neg =>
    have hrun := rxBytes_lenField_mask herr hs hm L []
    rw [List.append_nil] at hrun
    exact ⟨_, hrun, raiseViolation_ne_three (by decide) _, fun h => absurd h hm⟩
  by_cases hctl : isControl (opcodeOf l.conn.hdrByte0) = true → L ≤ 125
  case neg =>
    obtain ⟨hc, hlarge⟩ := Classical.not_imp.mp hctl
    obtain ⟨n, ext, hfield, hn⟩ := lenField_extended m (Nat.not_le.mp hlarge)
    have hv : lengthViolation (byte1 m n) l.conn = some .controlTooLong :=
      lengthViolation_control (by rwa [maskOf_byte1]) hc (by rwa [len7Of_byte1])
    rw [hfield]
    exact ⟨_, rxBytes_byte1_violation herr hs hv ext, raiseViolation_ne_three (by decide) _, fun _ h => absurd h hctl⟩
  cases hex : exceeds l.conn (BitVec.ofNat 64 L)
  case true =>
    obtain ⟨b1, d, e, i, hall⟩ := rxBytes_lenField_exceeds herr hs hm hL hctl hex
    exact ⟨_, hall l.conn.hdrByte0 rfl, raiseViolation_ne_three (by decide) _, fun _ _ h => by cases h⟩
  obtain ⟨herr', hrem, hb1⟩ := headerLengthDone_conn { l with conn := lengthDecoded m L l.conn }
  refine ⟨_, rxBytes_lenField herr hs hm hL hctl hex, ?_, fun _ _ _ => ⟨herr'.trans herr, ?_, ?_⟩⟩
  · rw [herr'.trans herr]; decide
  · rw [hrem]
    exact (BitVec.toNat_ofNat L 64).trans (Nat.mod_eq_of_lt hL)
  · rw [hb1]; exact maskOf_byte1 _ _

/-- Settles O25: byte 0 is accepted and byte 1 raises the violation, which halts (`rxBytes_frame_mask`). -/
theorem wrongMaskDirectionHalts : Obligations.WrongMaskDirectionHalts := by
  intro s op f i h hinstr hwrong
  obtain ⟨hdef, hexec, -⟩ := frameInstr_exec hinstr s
  have hm : f.key.isSome ≠ expectedMask s.conn.role := by
    apply maskOf_ne_expected
    simpa [Option.isSome_iff_ne_none] using hwrong
  rw [hexec, receive_next h.initialised (rxBytes_frame_mask h.noError h.atStep hdef hm), afterByte0, opcodeOf_byte0]
  exact congrArg _ (received_eq_after rfl rfl)

/-- Settles O26: the length field raises the violation on its last byte, which halts (`rxBytes_frame_exceeds`). -/
theorem frameOverMaximumHalts : Obligations.FrameOverMaximumHalts := by
  intro s op f i h hinstr hwf hm hen hmax
  obtain ⟨hdef, hexec, -⟩ := frameInstr_exec hinstr s
  obtain ⟨hlen, hctl⟩ := (frameInstr_wf_iff hinstr).mp hwf
  obtain ⟨b1, d, e, j, hall⟩ := rxBytes_frame_exceeds h.noError h.atStep hdef hm hlen hctl
    ((exceeds_iff s.conn _ hlen).mpr ⟨hen, hmax⟩)
  exact ⟨_, hexec.trans (receive_next h.initialised (hall f.rsv)), rfl, rfl, rfl, rfl, rfl, rfl, rfl, rfl⟩

/-- Settles O27: byte 0 is accepted and byte 1 raises the violation; a control opcode is not remembered. -/
theorem oversizedControlFrameHalts : Obligations.OversizedControlFrameHalts := by
  intro s b0 b1 rest h hctl hm hn
  have hrun : rxBytes (b0 :: b1 :: rest) s.link = .next (raiseViolation .controlTooLong (afterByte0 b0 s.link)) :=
    (rxBytes_byte0 h.noError h.atStep (isReserved_of_isControl hctl) _).trans
      (rxBytes_byte1_violation (l := afterByte0 b0 s.link) h.noError rfl (lengthViolation_control hm hctl hn) rest)
  refine (receive_next h.initialised hrun).trans ?_
  rw [afterByte0, nextLastOpcode_control hctl]
  exact congrArg _ (received_eq_after rfl rfl)

/-- Settles O28: byte 1 passes its checks, the last length byte raises the violation, and the rest is dropped. -/
theorem nonMinimalLengthHalts : Obligations.NonMinimalLengthHalts := by
  intro s b0 b1 ext rest h hdata hm hform
  obtain ⟨least, hform', hlt, hn⟩ : ∃ least,
      (len7Of b1 = 126 ∧ ext.length = 2 ∧ least = 126 ∨ len7Of b1 = 127 ∧ ext.length = 8 ∧ least = 65536) ∧
        (lengthOf ext).toNat < least ∧ 125 < (len7Of b1).toNat := by
    rcases hform with ⟨hn, hlen, hlt⟩ | ⟨hn, hlen, hlt⟩
    · exact ⟨126, .inl ⟨hn, hlen, rfl⟩, hlt, by rw [hn]; decide⟩
    · exact ⟨65536, .inr ⟨hn, hlen, rfl⟩, hlt, by rw [hn]; decide⟩
  have hv : lengthViolation b1 (afterByte0 b0 s.link).conn = none :=
    lengthViolation_accepted hm (fun hc => absurd ((isControl_of_isData hdata).symm.trans hc) Bool.false_ne_true)
      (fun hle => by omega)
  obtain ⟨d, e, i, b, hrun, hvalue⟩ := rxBytes_extLength (by exact h.noError) rfl hv hform'
  rw [lastLengthByte_violation (v := .nonMinimalLength) (by rw [hvalue]; exact if_pos hlt)] at hrun
  have hall := (rxBytes_byte0 h.noError h.atStep (isReserved_of_isData hdata) (b1 :: (ext ++ rest))).trans
    (rxBytes_append_halted hrun (raiseViolation_halts _ _) rest)
  exact ⟨_, receive_next h.initialised hall, rfl, rfl, rfl, rfl, rfl, rfl⟩

/-- Settles O37: both frames are the same bytes but for RSV in byte 0 (`rxBytes_frame_rsv`). -/
theorem reservedBitsAreIgnored : Obligations.ReservedBitsAreIgnored := by
  intro s op f r i j h hwf hi hj
  obtain ⟨hdef, hexec, -⟩ := frameInstr_exec hi s
  obtain ⟨-, hexec', -⟩ := frameInstr_exec hj s
  obtain ⟨hlen, hctl⟩ := (frameInstr_wf_iff hi).mp hwf
  obtain ⟨l, hl, hl'⟩ := rxBytes_frame_rsv h.noError h.atStep hdef hlen hctl r
  exact ⟨_, hexec.trans (receive_next h.initialised hl), hexec'.trans (receive_next h.initialised hl')⟩

end Sys2Proof
end
